-- ==== Sys2Proof/Word.lean ====
section
/-! DEFINITION. The two word types of the hardware: a byte (0..255) and a word (0..65535), 00_scope.md section 5.
Arithmetic on both wraps at their width and never widens (R5), which is what addition on `BitVec` does. -/

namespace Sys2Proof

/-- A byte: the width of A, X, Y, P and of a memory cell (R4). -/
abbrev Byte := BitVec 8

/-- A word: the width of pc and of an address (R4). -/
abbrev Word := BitVec 16

end Sys2Proof
end

