-- ==== Sys2Proof/Config.lean ====
section
/-! DEFINITION. What is fixed for the hardware (R4) and the values the spec leaves without a value: what the registers
of a created context hold before any Reset, Load or host write (R25). The opcode table, which R4 also calls a
parameter, is `Config.opTable` in Decode.lean. -/

namespace Sys2Proof

/-- `LOAD_BASE`: where Load copies a program (R4). -/
def Config.loadBase : Word := 0x8000

/-- `RESET_VECTOR`: the low byte's address; the high byte is at the next address (R4). -/
def Config.resetVector : Word := 0xFFFC

/-- `LOAD_MAX`: the longest program Load accepts, in bytes (R4). -/
def Config.loadMax : Nat := 0x8000

/-- The number of memory cells (R4, R21). -/
def Config.memSize : Nat := 0x10000

/-- FREE VALUE (log 4). What A, X, Y and P (index 0 to 3) hold in a created context: the spec says they hold no value
(R25), so nothing is known of these bytes. -/
opaque Config.createdByte : Nat → Byte

/-- FREE VALUE (log 4). What pc holds in a created context (R25). -/
opaque Config.createdPc : Word

end Sys2Proof
end

