-- ==== Sys2Proof/Syntax.lean ====
section
/-! DEFINITION. The instruction set as data: mnemonics, addressing modes, descriptors and opcode tables (R50, R54), and
`Instr`, one constructor per row of the opcode table (R56). -/

namespace Sys2Proof

/-- The `mnemonic` of a descriptor (R50): one of the six with a handler (R91), or a name no handler is wired for
("has a table entry but no wired handler", R58, R91). -/
inductive Mnemonic where
  | and | lda | sta | tax | inx | brk
  | unwired (name : String)
deriving DecidableEq, Repr

/-- The ten addressing modes, "one of a fixed enumeration" (R50). `none` is the mode of the instructions that have no
operand. -/
inductive Mode where
  | immediate | zeroPage | zeroPageX | zeroPageY
  | absolute | absoluteX | absoluteY
  | indirectX | indirectY
  | none
deriving DecidableEq, Repr

/-- An opcode descriptor (R50). `length` counts the opcode byte; `cycles` is read by no rule (R203). -/
structure Descriptor where
  code     : Byte
  mnemonic : Mnemonic
  length   : Nat
  cycles   : Nat
  mode     : Mode
deriving DecidableEq, Repr

/-- An opcode table: the descriptors of a partial map from opcode byte to descriptor (R50). -/
abbrev OpTable := List Descriptor

/-- `OPTABLE[b]`: the descriptor of the byte b, or absent (R54). -/
def OpTable.lookup (T : OpTable) (b : Byte) : Option Descriptor :=
  T.find? (fun d => d.code == b)

/-- A decoded instruction of any opcode table: the mnemonic and the mode its descriptor gives, and its operand bytes in
ascending addresses (R51, R54). Every pairing of a mnemonic with a mode is a form, those no row of R56 has included. -/
structure Form where
  mnemonic : Mnemonic
  mode     : Mode
  operands : List Byte
deriving DecidableEq, Repr

/-- The instructions: one constructor per row of R56. A byte operand is the operand byte d of format F2, a word operand
the address `{h, l}` of format F3 (R53). Every operand value is legal (R59). -/
inductive Instr where
  /-- 0x00 -/ | brk
  /-- 0x21 -/ | andIndX (d : Byte)
  /-- 0x25 -/ | andZp (d : Byte)
  /-- 0x29 -/ | andImm (d : Byte)
  /-- 0x2D -/ | andAbs (w : Word)
  /-- 0x31 -/ | andIndY (d : Byte)
  /-- 0x35 -/ | andZpX (d : Byte)
  /-- 0x39 -/ | andAbsY (w : Word)
  /-- 0x3D -/ | andAbsX (w : Word)
  /-- 0x81 -/ | staIndX (d : Byte)
  /-- 0x85 -/ | staZp (d : Byte)
  /-- 0x8D -/ | staAbs (w : Word)
  /-- 0x91 -/ | staIndY (d : Byte)
  /-- 0x95 -/ | staZpX (d : Byte)
  /-- 0x99 -/ | staAbsY (w : Word)
  /-- 0x9D -/ | staAbsX (w : Word)
  /-- 0xA1 -/ | ldaIndX (d : Byte)
  /-- 0xA5 -/ | ldaZp (d : Byte)
  /-- 0xA9 -/ | ldaImm (d : Byte)
  /-- 0xAA -/ | tax
  /-- 0xAD -/ | ldaAbs (w : Word)
  /-- 0xB1 -/ | ldaIndY (d : Byte)
  /-- 0xB5 -/ | ldaZpX (d : Byte)
  /-- 0xB9 -/ | ldaAbsY (w : Word)
  /-- 0xBD -/ | ldaAbsX (w : Word)
  /-- 0xE8 -/ | inx
deriving DecidableEq, Repr

/-- The mnemonic of an instruction (the column "mnemonic" of R56). -/
def Instr.mnemonic : Instr → Mnemonic
  | .brk => .brk
  | .andIndX _ | .andZp _ | .andImm _ | .andAbs _ | .andIndY _ | .andZpX _ | .andAbsY _ | .andAbsX _ => .and
  | .staIndX _ | .staZp _ | .staAbs _ | .staIndY _ | .staZpX _ | .staAbsY _ | .staAbsX _ => .sta
  | .ldaIndX _ | .ldaZp _ | .ldaImm _ | .ldaAbs _ | .ldaIndY _ | .ldaZpX _ | .ldaAbsY _ | .ldaAbsX _ => .lda
  | .tax => .tax
  | .inx => .inx

/-- The addressing mode of an instruction (the column "mode" of R56). -/
def Instr.mode : Instr → Mode
  | .brk | .tax | .inx => .none
  | .andImm _ | .ldaImm _ => .immediate
  | .andZp _ | .staZp _ | .ldaZp _ => .zeroPage
  | .andZpX _ | .staZpX _ | .ldaZpX _ => .zeroPageX
  | .andAbs _ | .staAbs _ | .ldaAbs _ => .absolute
  | .andAbsX _ | .staAbsX _ | .ldaAbsX _ => .absoluteX
  | .andAbsY _ | .staAbsY _ | .ldaAbsY _ => .absoluteY
  | .andIndX _ | .staIndX _ | .ldaIndX _ => .indirectX
  | .andIndY _ | .staIndY _ | .ldaIndY _ => .indirectY

end Sys2Proof
end

