-- ==== Sys2Proof/WellFormed.lean ====
section
/-! DEFINITION. What a well-formed opcode table is (R55), and when an instruction is well formed against a table.
The operand bytes of an instruction are unconstrained (R59): what can be wrong with an instruction is that the table
has no row for it, or a row of another length. -/

namespace Sys2Proof

/-- The length rule: one plus the number of operand bytes the mode's resolver reads (R52). -/
def Mode.length : Mode → Nat
  | .none => 1
  | .immediate | .zeroPage | .zeroPageX | .zeroPageY | .indirectX | .indirectY => 2
  | .absolute | .absoluteX | .absoluteY => 3

/-- The mnemonic is one of the six that have a handler (R55 (b)). -/
def Mnemonic.wired : Mnemonic → Bool
  | .unwired _ => false
  | _ => true

/-- LDA, AND and STA call the resolver; the other handlers never do (R91). -/
def Mnemonic.resolves : Mnemonic → Bool
  | .lda | .and | .sta => true
  | _ => false

/-- R55 (c): the mode is None exactly when the mnemonic's handler does not resolve. -/
def Descriptor.pairsWell (d : Descriptor) : Bool :=
  d.mnemonic.resolves == (d.mode != .none)

/-- R55 (d): the length is the one R52 gives for the mode. -/
def Descriptor.lengthOk (d : Descriptor) : Bool :=
  d.length == d.mode.length

/-- R55 (b), (c) and (d) for one descriptor. -/
def Descriptor.wf (d : Descriptor) : Bool :=
  d.mnemonic.wired && d.pairsWell && d.lengthOk

/-- "the table contains at most one descriptor per code value" (R50). With descriptors kept under their own code this is
also what R55 (a) asks. -/
def OpTable.codesDistinct : OpTable → Bool
  | [] => true
  | d :: T => T.all (fun e => e.code != d.code) && OpTable.codesDistinct T

/-- A well-formed opcode table (R55). -/
def OpTable.wf (T : OpTable) : Bool :=
  T.codesDistinct && T.all Descriptor.wf

/-- A form is well formed against a table when the table has a row for its mnemonic and mode, of the length of the mode, and
it has that many operand bytes (R52, R55). -/
def Form.wfIn (T : OpTable) (f : Form) : Bool :=
  T.any (fun d => d.mnemonic == f.mnemonic && d.mode == f.mode && d.lengthOk) &&
    f.operands.length == f.mode.length - 1

/-- The row an instruction belongs to: its mnemonic with its mode. -/
def Instr.hasRow (i : Instr) (d : Descriptor) : Bool :=
  d.mnemonic == i.mnemonic && d.mode == i.mode

/-- An instruction is well formed against a table when the table has a row for it and that row has the length of the
instruction's mode. -/
def Instr.wfIn (T : OpTable) (i : Instr) : Bool :=
  T.any (fun d => i.hasRow d && d.lengthOk)

end Sys2Proof
end

