-- ==== Sys2Proof/Decode.lean ====
section
/-! DEFINITION. The opcode table (R56), the byte-order helpers, the decoder (total on any bytes, refusing by name) and,
after it, the encoder, written from the same table of the spec. -/

namespace Sys2Proof

/-! ### Byte order -/

/-- `{h, l}`: the word with high byte h and low byte l (00_scope.md section 5). -/
def cat (h l : Byte) : Word := h ++ l

/-- `lo(w)` = `w[7:0]`. -/
def lo (w : Word) : Byte := w.setWidth 8

/-- `hi(w)` = `w[15:8]`. -/
def hi (w : Word) : Byte := w.extractLsb' 8 8

/-- `zext_16(b)`: the byte as a word, value unchanged. Nothing is ever sign extended. -/
def zext16 (b : Byte) : Word := b.setWidth 16

/-! ### The opcode table

The values of the bytes other than 0x00 and 0x21 are PRESUMED (general knowledge of the MOS 6502, log 1); the cycles are
metadata (R203, log 2). -/

/-- The default rows of AND (R131-R138). -/
def Config.opRowsAnd : OpTable :=
  [ ⟨0x21, .and, 2, 6, .indirectX⟩
  , ⟨0x25, .and, 2, 3, .zeroPage⟩
  , ⟨0x29, .and, 2, 2, .immediate⟩
  , ⟨0x2D, .and, 3, 4, .absolute⟩
  , ⟨0x31, .and, 2, 5, .indirectY⟩
  , ⟨0x35, .and, 2, 4, .zeroPageX⟩
  , ⟨0x39, .and, 3, 4, .absoluteY⟩
  , ⟨0x3D, .and, 3, 4, .absoluteX⟩ ]

/-- The default rows of STA (R120-R126). -/
def Config.opRowsSta : OpTable :=
  [ ⟨0x81, .sta, 2, 6, .indirectX⟩
  , ⟨0x85, .sta, 2, 3, .zeroPage⟩
  , ⟨0x8D, .sta, 3, 4, .absolute⟩
  , ⟨0x91, .sta, 2, 6, .indirectY⟩
  , ⟨0x95, .sta, 2, 4, .zeroPageX⟩
  , ⟨0x99, .sta, 3, 5, .absoluteY⟩
  , ⟨0x9D, .sta, 3, 5, .absoluteX⟩ ]

/-- The default rows of LDA (R111-R118). -/
def Config.opRowsLda : OpTable :=
  [ ⟨0xA1, .lda, 2, 6, .indirectX⟩
  , ⟨0xA5, .lda, 2, 3, .zeroPage⟩
  , ⟨0xA9, .lda, 2, 2, .immediate⟩
  , ⟨0xAD, .lda, 3, 4, .absolute⟩
  , ⟨0xB1, .lda, 2, 5, .indirectY⟩
  , ⟨0xB5, .lda, 2, 4, .zeroPageX⟩
  , ⟨0xB9, .lda, 3, 4, .absoluteY⟩
  , ⟨0xBD, .lda, 3, 4, .absoluteX⟩ ]

/-- The default rows of BRK, TAX and INX (R145, R140, R141). -/
def Config.opRowsNone : OpTable :=
  [ ⟨0x00, .brk, 1, 7, .none⟩
  , ⟨0xAA, .tax, 1, 2, .none⟩
  , ⟨0xE8, .inx, 1, 2, .none⟩ ]

/-- `OPTABLE`, at its default: 26 descriptors (R56). -/
def Config.opTable : OpTable :=
  Config.opRowsNone ++ Config.opRowsAnd ++ Config.opRowsSta ++ Config.opRowsLda

/-! ### Decoding -/

/-- Why bytes do not decode. -/
inductive DecodeError where
  /-- there is no byte to decode -/
  | noBytes
  /-- the opcode byte has no descriptor (R58) -/
  | unsupported (b : Byte)
  /-- the bytes end inside the instruction -/
  | truncated (b : Byte)
  /-- no constructor of `Instr` stands for the form; raised by `decode` only, and not reached: every form the default table
  gives has one -/
  | unpaired (f : Form)
deriving DecidableEq, Repr

/-- The instructions of format F1: no operand (R51). -/
def assembleF1 : Mnemonic → Mode → Option Instr
  | .brk, .none => some .brk
  | .tax, .none => some .tax
  | .inx, .none => some .inx
  | _, _ => none

/-- The instructions of format F2: one operand byte d (R51, R53). -/
def assembleF2 (mn : Mnemonic) (m : Mode) (d : Byte) : Option Instr :=
  match mn, m with
  | .and, .indirectX => some (.andIndX d)
  | .and, .zeroPage => some (.andZp d)
  | .and, .immediate => some (.andImm d)
  | .and, .indirectY => some (.andIndY d)
  | .and, .zeroPageX => some (.andZpX d)
  | .sta, .indirectX => some (.staIndX d)
  | .sta, .zeroPage => some (.staZp d)
  | .sta, .indirectY => some (.staIndY d)
  | .sta, .zeroPageX => some (.staZpX d)
  | .lda, .indirectX => some (.ldaIndX d)
  | .lda, .zeroPage => some (.ldaZp d)
  | .lda, .immediate => some (.ldaImm d)
  | .lda, .indirectY => some (.ldaIndY d)
  | .lda, .zeroPageX => some (.ldaZpX d)
  | _, _ => none

/-- The instructions of format F3: the operand word `{h, l}` (R51, R53). -/
def assembleF3 (mn : Mnemonic) (m : Mode) (w : Word) : Option Instr :=
  match mn, m with
  | .and, .absolute => some (.andAbs w)
  | .and, .absoluteY => some (.andAbsY w)
  | .and, .absoluteX => some (.andAbsX w)
  | .sta, .absolute => some (.staAbs w)
  | .sta, .absoluteY => some (.staAbsY w)
  | .sta, .absoluteX => some (.staAbsX w)
  | .lda, .absolute => some (.ldaAbs w)
  | .lda, .absoluteY => some (.ldaAbsY w)
  | .lda, .absoluteX => some (.ldaAbsX w)
  | _, _ => none

/-- The instruction of a mnemonic, a mode and its operand bytes, which stand in ascending addresses: low byte, high byte
(R51, R53). -/
def assemble (mn : Mnemonic) (m : Mode) : List Byte → Option Instr
  | [] => assembleF1 mn m
  | [d] => assembleF2 mn m d
  | [l, h] => assembleF3 mn m (cat h l)
  | _ => none

/-- Decode one instruction with the table T, giving its form and the bytes after it. Only the opcode byte selects the descriptor
(R54), and the descriptor's length says how many bytes the instruction has (R52). Whatever rows T has, nothing is refused but
a byte without a descriptor and bytes that end too soon. -/
def decodeWith (T : OpTable) : List Byte → Except DecodeError (Form × List Byte)
  | [] => .error .noBytes
  | b :: rest =>
    match T.lookup b with
    | none => .error (.unsupported b)
    | some d =>
      if rest.length < d.length - 1 then .error (.truncated b)
      else .ok (⟨d.mnemonic, d.mode, rest.take (d.length - 1)⟩, rest.drop (d.length - 1))

/-- The decoder of the hardware: the default table's forms as instructions. -/
def decode (bytes : List Byte) : Except DecodeError (Instr × List Byte) :=
  match decodeWith Config.opTable bytes with
  | .error e => .error e
  | .ok (f, rest) =>
    match assemble f.mnemonic f.mode f.operands with
    | none => .error (.unpaired f)
    | some i => .ok (i, rest)

/-- Walk bytes from an instruction boundary with a decoder of one instruction (R60). `fuel` is a bound on the number of
instructions; the number of bytes is always enough for a decoder that uses at least one. -/
def walk {α : Type} (one : List Byte → Except DecodeError (α × List Byte)) :
    Nat → List Byte → Except DecodeError (List α)
  | _, [] => .ok []
  | 0, _ :: _ => .error .noBytes
  | fuel + 1, b :: bs =>
    match one (b :: bs) with
    | .error e => .error e
    | .ok (i, rest) =>
      match walk one fuel rest with
      | .error e => .error e
      | .ok is => .ok (i :: is)

/-- All the forms of a byte sequence that starts at an instruction boundary, with the table T (R60). -/
def decodeAllWith (T : OpTable) (bytes : List Byte) : Except DecodeError (List Form) :=
  walk (decodeWith T) bytes.length bytes

/-- All the instructions of a byte sequence that starts at an instruction boundary (R60). -/
def decodeAll (bytes : List Byte) : Except DecodeError (List Instr) :=
  walk decode bytes.length bytes

/-- The instruction the decoder reads from the bits w of a table row of nbits bits, bit 0 the least significant bit of the
first byte; the bits above nbits are 0. The bytes stand in ascending addresses (R51). -/
def decodeTableWord (nbits w : Nat) : Option Instr :=
  let v := w % 2 ^ nbits
  match decode [BitVec.ofNat 8 v, BitVec.ofNat 8 (v / 2 ^ 8), BitVec.ofNat 8 (v / 2 ^ 16)] with
  | .ok (i, _) => some i
  | .error _ => none

/-! ### Encoding -/

/-- The opcode byte of an instruction (R56). -/
def Instr.opcode : Instr → Byte
  | .brk => 0x00
  | .andIndX _ => 0x21
  | .andZp _ => 0x25
  | .andImm _ => 0x29
  | .andAbs _ => 0x2D
  | .andIndY _ => 0x31
  | .andZpX _ => 0x35
  | .andAbsY _ => 0x39
  | .andAbsX _ => 0x3D
  | .staIndX _ => 0x81
  | .staZp _ => 0x85
  | .staAbs _ => 0x8D
  | .staIndY _ => 0x91
  | .staZpX _ => 0x95
  | .staAbsY _ => 0x99
  | .staAbsX _ => 0x9D
  | .ldaIndX _ => 0xA1
  | .ldaZp _ => 0xA5
  | .ldaImm _ => 0xA9
  | .tax => 0xAA
  | .ldaAbs _ => 0xAD
  | .ldaIndY _ => 0xB1
  | .ldaZpX _ => 0xB5
  | .ldaAbsY _ => 0xB9
  | .ldaAbsX _ => 0xBD
  | .inx => 0xE8

/-- The operand bytes of an instruction, in ascending addresses: low byte first (R51, R53). -/
def Instr.operands : Instr → List Byte
  | .brk | .tax | .inx => []
  | .andIndX d | .andZp d | .andImm d | .andIndY d | .andZpX d | .staIndX d | .staZp d | .staIndY d |
    .staZpX d | .ldaIndX d | .ldaZp d | .ldaImm d | .ldaIndY d | .ldaZpX d => [d]
  | .andAbs w | .andAbsY w | .andAbsX w | .staAbs w | .staAbsY w | .staAbsX w | .ldaAbs w | .ldaAbsY w |
    .ldaAbsX w => [lo w, hi w]

/-- The bytes of an instruction in ascending addresses: opcode byte, operand low byte, operand high byte (R37, R51). -/
def encode (i : Instr) : List Byte := i.opcode :: i.operands

/-- The bytes of an instruction sequence. -/
def encodeAll (is : List Instr) : List Byte := is.flatMap encode

/-- The form of an instruction. -/
def Instr.form (i : Instr) : Form := ⟨i.mnemonic, i.mode, i.operands⟩

/-- The bytes of a form under the table T: the code of the first row with its mnemonic and mode, then its operand bytes;
absent when T has no such row, or one of another length. -/
def encodeWith (T : OpTable) (f : Form) : Option (List Byte) :=
  match T.find? (fun d => d.mnemonic == f.mnemonic && d.mode == f.mode) with
  | none => none
  | some d => if f.operands.length = d.length - 1 then some (d.code :: f.operands) else none

end Sys2Proof
end

