-- ==== Sys2Proof/Machine/Memory.lean ====
section
/-! DEFINITION. The memory image (R21, R30, R31): 65536 byte cells, kept as the list of the cells that do not hold what an
unlisted cell reads as, addresses strictly rising. Every address is readable and writable; nothing here can fail (R32,
R33, R173). Word accesses are built from byte accesses, low byte at the lower address (R37). -/

namespace Sys2Proof.Machine

/-- The memory image. -/
abbrev Memory := List Host.Cell

/-- What a cell that is not listed reads as: the byte of `MEM0` in every cell the launch does not list. DESIGN CHOICE (log 3):
0x00, which the spec's own vectors take as a premise (95_test_vectors.md section 0). -/
def Memory.unlisted : Byte := 0x00#8

/-- The canonical form, for addresses from `lo` on: strictly rising, inside the 65536 cells, no entry equal to what an
unlisted cell reads as. -/
def Memory.wfFrom (lo : Nat) : Memory → Bool
  | [] => true
  | (k, v) :: m => decide (lo ≤ k) && decide (k < Config.memSize) && (v != Memory.unlisted) && Memory.wfFrom (k + 1) m

/-- The canonical form of a memory image. -/
def Memory.wf (m : Memory) : Bool := Memory.wfFrom 0 m

/-- The byte at the Nat key a. -/
def Memory.get : Memory → Nat → Byte
  | [], _ => Memory.unlisted
  | (k, v) :: m, a => if k = a then v else Memory.get m a

/-- The image without any entry at the key a. -/
def Memory.erase : Memory → Nat → Memory
  | [], _ => []
  | (k, v) :: m, a => if k = a then Memory.erase m a else (k, v) :: Memory.erase m a

/-- The image with an entry for the key a placed before the first greater key. -/
def Memory.insert : Memory → Nat → Byte → Memory
  | [], a, v => [(a, v)]
  | (k, w) :: m, a, v => if a < k then (a, v) :: (k, w) :: m else (k, w) :: Memory.insert m a v

/-- The image with the byte v at the key a, in canonical form again. -/
def Memory.set (m : Memory) (a : Nat) (v : Byte) : Memory :=
  if v = Memory.unlisted then m.erase a else (m.erase a).insert a v

/-- `MemRead(a, 1)` (R32). The translation from address to cell is the identity (R38). -/
def Memory.read (m : Memory) (a : Word) : Byte := m.get a.toNat

/-- `MemWrite(a, 1, v)` (R33). -/
def Memory.write (m : Memory) (a : Word) (v : Byte) : Memory := m.set a.toNat v

/-- `MemRead(a, 2)`: little-endian, the second address wraps at 16 bits (R34). -/
def Memory.readWord (m : Memory) (a : Word) : Word := cat (m.read (a + 1#16)) (m.read a)

/-- `MemWrite(a, 2, w)`: the low byte, then the high byte at the next address, which wraps at 16 bits (R35). -/
def Memory.writeWord (m : Memory) (a : Word) (w : Word) : Memory := (m.write a (lo w)).write (a + 1#16) (hi w)

/-- `MemReadZP(p, 2)`: both bytes from page 0, the second address wraps at 8 bits (R36). -/
def Memory.readZP (m : Memory) (p : Byte) : Word := cat (m.read (zext16 (p + 1#8))) (m.read (zext16 p))

/-- Write the bytes in ascending addresses from a on, wrapping at 16 bits. -/
def Memory.writeBytes (m : Memory) (a : Word) : List Byte → Memory
  | [] => m
  | b :: bs => Memory.writeBytes (m.write a b) (a + 1#16) bs

/-- The n bytes from a on, in ascending addresses, wrapping at 16 bits. -/
def Memory.readBytes (m : Memory) (a : Word) : Nat → List Byte
  | 0 => []
  | n + 1 => m.read a :: Memory.readBytes m (a + 1#16) n

end Sys2Proof.Machine
end

