-- ==== Sys2Proof/Machine/State.lean ====
section
/-! DEFINITION. The state of one execution context (10_state.md), the reasons a step or a host operation can stop, and
the machine right after Reset. -/

namespace Sys2Proof.Machine

/-- The five registers a host can name (R158). -/
inductive Reg where
  | A | X | Y | P | pc
deriving DecidableEq, Repr

/-- The loop state (R20). Between two instructions it is `fetch`, `halted` or `faulted`. -/
inductive LoopState where
  | fetch | dispatch | execute | halted | faulted
deriving DecidableEq, Repr

/-- What is live only inside one instruction (R19, R20): the latch `pc_after_fetch`, the fetched opcode byte and, once
Dispatch has found it, the descriptor. -/
structure Latch where
  pcAfterFetch : Word
  opcode       : Byte
  descriptor   : Option Descriptor
deriving DecidableEq, Repr

/-- The faults: three conditions identified by name (R170-R172, D16); there is no other (R173). -/
inductive Fault where
  /-- Raised by Dispatch: the fetched byte b has no descriptor, or one with no handler (R170). The spec's own fault, so neither
  safe nor unsafe. -/
  | unsupportedOpcode (b : Byte)
  /-- Raised by the resolver for mode None (R80, R171). With a well-formed table nothing raises it. The spec's own fault. -/
  | invalidAddressingUse
  /-- Raised by the host operation Load when the program does not fit (R172); no step raises it. The spec's own fault. -/
  | outOfBoundsLoad
deriving DecidableEq, Repr

/-- The refusals: what the spec gives no step or no value for. -/
inductive Refusal where
  /-- Raised by exec for an instruction that has no meaning yet. Safe. No arm uses it. -/
  | notModelled (mnemonic : String)
  /-- Raised by step in a loop state other than Fetch: "`Step` is not defined in loop states Halted and Faulted: no step is
  enabled there" (R100). Safe. -/
  | stepNotEnabled (l : LoopState)
  /-- Raised by the host's Run and ReadReg for a register that has no value yet (R25, R154, R158). Safe. No step raises it. -/
  | valueless (r : Reg)
  /-- Raised by a context for a host operation issued while a Run is in progress on it: the host has no such move (R45, R159). Safe.
  No step raises it. -/
  | runInProgress
deriving DecidableEq, Repr

/-- The state of one execution context (R23: the list is complete). -/
structure State where
  /-- accumulator (R10) -/
  A : Byte
  /-- index register X (R11) -/
  X : Byte
  /-- index register Y (R12) -/
  Y : Byte
  /-- status register: bit 1 Z, bit 7 N, the other six bits storage (R13) -/
  P : Byte
  /-- program counter (R18) -/
  pc : Word
  /-- memory image (R21) -/
  mem : Memory
  /-- loop state (R20) -/
  loopState : LoopState
  /-- the instruction in progress, none between instructions (R19) -/
  latch : Option Latch
deriving DecidableEq, Repr

/-- The machine right after Reset (R24, R191) of a context whose memory lists nothing: A, X, Y and P zero, pc the word at
the reset vector, loop state Fetch. -/
def State.reset : State where
  A := 0x00#8
  X := 0x00#8
  Y := 0x00#8
  P := 0x00#8
  pc := Memory.readWord [] Config.resetVector
  mem := []
  loopState := .fetch
  latch := none

end Sys2Proof.Machine
end

