-- ==== Sys2Proof/Machine/Flags.lean ====
section
/-! DEFINITION. The status register's two flags and the one routine that writes them (R13-R17). -/

namespace Sys2Proof.Machine

/-- `SetZN(r)` on the status byte p: bit 1 is set when r is zero and cleared otherwise, bit 7 is bit 7 of r, the other six
bits are kept (R17; 0x7D keeps every bit but 1 and 7). -/
def setZN (r p : Byte) : Byte :=
  (p &&& 0x7D#8) ||| (if r = 0x00#8 then 0x02#8 else 0x00#8) ||| (r &&& 0x80#8)

/-- `P.Z` = `P[1]` (R14). -/
def flagZ (p : Byte) : Bool := p.getLsbD 1

/-- `P.N` = `P[7]` (R15). -/
def flagN (p : Byte) : Bool := p.getLsbD 7

/-- The six bits of P that are storage only (R16). -/
def storageBits (p : Byte) : Byte := p &&& 0x7D#8

end Sys2Proof.Machine
end

