-- ==== Sys2Proof/Machine/Ops.lean ====
section
/-! DEFINITION. The named operations the meanings are made of: writing a register with its flags, storing a byte, halting,
and raising a fault. There is no trap entry and no return from one (R176, R178): a fault ends the Run, and what it leaves
behind is `State.raise`. -/

namespace Sys2Proof.Machine

/-- `A <- v; SetZN(v)` (R110, R130). -/
def State.setA (s : State) (v : Byte) : State := { s with A := v, P := setZN v s.P }

/-- `X <- v; SetZN(v)` (R140, R141). -/
def State.setX (s : State) (v : Byte) : State := { s with X := v, P := setZN v s.P }

/-- `MemWrite(ea, 1, A)` (R119): no flag. -/
def State.storeA (s : State) (ea : Word) : State := { s with mem := s.mem.write ea s.A }

/-- BRK's whole effect: the loop state (R145). -/
def State.halt (s : State) : State := { s with loopState := .halted }

/-- What every fault of a step does to the state it is raised in: the loop state becomes Faulted and the instruction in progress is
over; pc stays where Fetch left it and nothing else changes (R93, R94, R97, R177). -/
def State.raise (s : State) : State := { s with loopState := .faulted, latch := none }

/-- A register together with a value of its width: what the host reads or writes (R158). -/
inductive RegVal where
  | A (v : Byte)
  | X (v : Byte)
  | Y (v : Byte)
  | P (v : Byte)
  | pc (v : Word)
deriving DecidableEq, Repr

/-- The register a value belongs to. -/
def RegVal.reg : RegVal → Reg
  | .A _ => .A
  | .X _ => .X
  | .Y _ => .Y
  | .P _ => .P
  | .pc _ => .pc

/-- `ReadReg(r)`: the whole register (R158). -/
def State.readReg (s : State) : Reg → RegVal
  | .A => .A s.A
  | .X => .X s.X
  | .Y => .Y s.Y
  | .P => .P s.P
  | .pc => .pc s.pc

/-- `WriteReg(r, v)`: the whole register and nothing else; writing P does not run SetZN (R158). -/
def State.writeReg (s : State) : RegVal → State
  | .A v => { s with A := v }
  | .X v => { s with X := v }
  | .Y v => { s with Y := v }
  | .P v => { s with P := v }
  | .pc v => { s with pc := v }

/-- The outcome of one pass of the loop with the state it leaves: `next`, `halt` and `raise` of R100, and the refusal of a step
where none is enabled. `Host.Outcome` has no room for the state a fault leaves, so `step` forgets it and `runFrom` keeps it. -/
inductive Pass where
  | next (s : State)
  | halt (s : State)
  | raise (f : Fault) (s : State)
  | refused (r : Refusal)
deriving DecidableEq, Repr

/-- A pass as the outcome of a step: a halt is a next state (loop state Halted), a raised fault is a fault. -/
def Pass.outcome : Pass → Host.Outcome State Fault Refusal
  | .next s => .next s
  | .halt s => .next s
  | .raise f _ => .fault f
  | .refused r => .refused r

end Sys2Proof.Machine
end

