-- ==== Sys2Proof/Machine/Operands.lean ====
section
/-! DEFINITION. The addressing-mode resolver (40_addressing_resolver.md). First the effective address of each memory operand
form from its decoded operand; then `resolve`, which reads the operand bytes at pc (the address after the opcode byte) as
R70 describes. Additions wrap at the width written (R81): a byte plus a byte at 8 bits, a word plus a word at 16. The
resolver changes nothing and reports no page crossing (R70, R76). -/

namespace Sys2Proof.Machine

/-- Immediate: the address after the opcode byte, which is pc itself (R71). -/
def eaImmediate (s : State) : Word := s.pc

/-- ZeroPage: `{0x00, d}` (R72). -/
def eaZeroPage (d : Byte) : Word := zext16 d

/-- ZeroPageX: `{0x00, d +8 X}` (R73). -/
def eaZeroPageX (d : Byte) (s : State) : Word := zext16 (d + s.X)

/-- ZeroPageY: `{0x00, d +8 Y}` (R74). -/
def eaZeroPageY (d : Byte) (s : State) : Word := zext16 (d + s.Y)

/-- Absolute: `{h, l}` (R75). -/
def eaAbsolute (w : Word) : Word := w

/-- AbsoluteX: `{h, l} +16 zext_16(X)` (R76). -/
def eaAbsoluteX (w : Word) (s : State) : Word := w + zext16 s.X

/-- AbsoluteY: `{h, l} +16 zext_16(Y)` (R77). -/
def eaAbsoluteY (w : Word) (s : State) : Word := w + zext16 s.Y

/-- IndirectX: `MemReadZP(d +8 X, 2)` (R78). -/
def eaIndirectX (d : Byte) (s : State) : Word := s.mem.readZP (d + s.X)

/-- IndirectY: `MemReadZP(d, 2) +16 zext_16(Y)` (R79). -/
def eaIndirectY (d : Byte) (s : State) : Word := s.mem.readZP d + zext16 s.Y

/-- `Resolve(mode)`, with pc the address of the first operand byte (R70-R80). The one fault is mode None's (R80). -/
def resolve (m : Mode) (s : State) : Except Fault Word :=
  match m with
  | .immediate => .ok (eaImmediate s)
  | .zeroPage => .ok (eaZeroPage (s.mem.read s.pc))
  | .zeroPageX => .ok (eaZeroPageX (s.mem.read s.pc) s)
  | .zeroPageY => .ok (eaZeroPageY (s.mem.read s.pc) s)
  | .absolute => .ok (eaAbsolute (s.mem.readWord s.pc))
  | .absoluteX => .ok (eaAbsoluteX (s.mem.readWord s.pc) s)
  | .absoluteY => .ok (eaAbsoluteY (s.mem.readWord s.pc) s)
  | .indirectX => .ok (eaIndirectX (s.mem.read s.pc) s)
  | .indirectY => .ok (eaIndirectY (s.mem.read s.pc) s)
  | .none => .error .invalidAddressingUse

end Sys2Proof.Machine
end

