-- ==== Sys2Proof/Machine/LoadStore.lean ====
section
/-! DEFINITION. The meanings of LDA and STA (42_load_store.md). A meaning is the handler's effect (Execute, R94): pc is the address
after the opcode byte when it runs and it leaves pc alone; Advance follows it (R95). -/

namespace Sys2Proof.Machine

/-- LDA Immediate, 0xA9 (R111). The data byte is the operand byte itself. -/
def execLdaImm (d : Byte) (s : State) : Host.Outcome State Fault Refusal :=
  .next (s.setA d)

/-- LDA ZeroPage, 0xA5 (R112). -/
def execLdaZp (d : Byte) (s : State) : Host.Outcome State Fault Refusal :=
  .next (s.setA (s.mem.read (eaZeroPage d)))

/-- LDA ZeroPageX, 0xB5 (R113). -/
def execLdaZpX (d : Byte) (s : State) : Host.Outcome State Fault Refusal :=
  .next (s.setA (s.mem.read (eaZeroPageX d s)))

/-- LDA Absolute, 0xAD (R114). -/
def execLdaAbs (w : Word) (s : State) : Host.Outcome State Fault Refusal :=
  .next (s.setA (s.mem.read (eaAbsolute w)))

/-- LDA AbsoluteX, 0xBD (R115). -/
def execLdaAbsX (w : Word) (s : State) : Host.Outcome State Fault Refusal :=
  .next (s.setA (s.mem.read (eaAbsoluteX w s)))

/-- LDA AbsoluteY, 0xB9 (R116). -/
def execLdaAbsY (w : Word) (s : State) : Host.Outcome State Fault Refusal :=
  .next (s.setA (s.mem.read (eaAbsoluteY w s)))

/-- LDA IndirectX, 0xA1 (R117). -/
def execLdaIndX (d : Byte) (s : State) : Host.Outcome State Fault Refusal :=
  .next (s.setA (s.mem.read (eaIndirectX d s)))

/-- LDA IndirectY, 0xB1 (R118). -/
def execLdaIndY (d : Byte) (s : State) : Host.Outcome State Fault Refusal :=
  .next (s.setA (s.mem.read (eaIndirectY d s)))

/-- STA ZeroPage, 0x85 (R120). -/
def execStaZp (d : Byte) (s : State) : Host.Outcome State Fault Refusal :=
  .next (s.storeA (eaZeroPage d))

/-- STA ZeroPageX, 0x95 (R121). -/
def execStaZpX (d : Byte) (s : State) : Host.Outcome State Fault Refusal :=
  .next (s.storeA (eaZeroPageX d s))

/-- STA Absolute, 0x8D (R122). -/
def execStaAbs (w : Word) (s : State) : Host.Outcome State Fault Refusal :=
  .next (s.storeA (eaAbsolute w))

/-- STA AbsoluteX, 0x9D (R123). -/
def execStaAbsX (w : Word) (s : State) : Host.Outcome State Fault Refusal :=
  .next (s.storeA (eaAbsoluteX w s))

/-- STA AbsoluteY, 0x99 (R124). -/
def execStaAbsY (w : Word) (s : State) : Host.Outcome State Fault Refusal :=
  .next (s.storeA (eaAbsoluteY w s))

/-- STA IndirectX, 0x81 (R125). -/
def execStaIndX (d : Byte) (s : State) : Host.Outcome State Fault Refusal :=
  .next (s.storeA (eaIndirectX d s))

/-- STA IndirectY, 0x91 (R126). -/
def execStaIndY (d : Byte) (s : State) : Host.Outcome State Fault Refusal :=
  .next (s.storeA (eaIndirectY d s))

end Sys2Proof.Machine
end

