-- ==== Sys2Proof/Machine/Logical.lean ====
section
/-! DEFINITION. The meanings of AND (43_logical.md): the accumulator becomes its bitwise AND with one byte, Z and N follow it. -/

namespace Sys2Proof.Machine

/-- AND Immediate, 0x29 (R131). The mask is the operand byte itself. -/
def execAndImm (d : Byte) (s : State) : Host.Outcome State Fault Refusal :=
  .next (s.setA (s.A &&& d))

/-- AND ZeroPage, 0x25 (R132). -/
def execAndZp (d : Byte) (s : State) : Host.Outcome State Fault Refusal :=
  .next (s.setA (s.A &&& s.mem.read (eaZeroPage d)))

/-- AND ZeroPageX, 0x35 (R133). -/
def execAndZpX (d : Byte) (s : State) : Host.Outcome State Fault Refusal :=
  .next (s.setA (s.A &&& s.mem.read (eaZeroPageX d s)))

/-- AND Absolute, 0x2D (R134). -/
def execAndAbs (w : Word) (s : State) : Host.Outcome State Fault Refusal :=
  .next (s.setA (s.A &&& s.mem.read (eaAbsolute w)))

/-- AND AbsoluteX, 0x3D (R135). -/
def execAndAbsX (w : Word) (s : State) : Host.Outcome State Fault Refusal :=
  .next (s.setA (s.A &&& s.mem.read (eaAbsoluteX w s)))

/-- AND AbsoluteY, 0x39 (R136). -/
def execAndAbsY (w : Word) (s : State) : Host.Outcome State Fault Refusal :=
  .next (s.setA (s.A &&& s.mem.read (eaAbsoluteY w s)))

/-- AND IndirectX, 0x21 (R137). -/
def execAndIndX (d : Byte) (s : State) : Host.Outcome State Fault Refusal :=
  .next (s.setA (s.A &&& s.mem.read (eaIndirectX d s)))

/-- AND IndirectY, 0x31 (R138). -/
def execAndIndY (d : Byte) (s : State) : Host.Outcome State Fault Refusal :=
  .next (s.setA (s.A &&& s.mem.read (eaIndirectY d s)))

end Sys2Proof.Machine
end

