-- ==== Sys2Proof/Machine/RegisterOps.lean ====
section
/-! DEFINITION. The meanings of TAX and INX (44_register_ops.md). Neither resolves its mode. -/

namespace Sys2Proof.Machine

/-- TAX, 0xAA: X becomes A, Z and N follow it (R140). -/
def execTax (s : State) : Host.Outcome State Fault Refusal :=
  .next (s.setX s.A)

/-- INX, 0xE8: X becomes X +8 1, Z and N follow it (R141). -/
def execInx (s : State) : Host.Outcome State Fault Refusal :=
  .next (s.setX (s.X + 1#8))

end Sys2Proof.Machine
end

