-- ==== Sys2Proof/Machine/System.lean ====
section
/-! DEFINITION. The meaning of BRK (45_system.md): the simplified halt, with no push, no vector and no flag (R146). -/

namespace Sys2Proof.Machine

/-- BRK, 0x00: the loop state becomes Halted and nothing else changes (R145). -/
def execBrk (s : State) : Host.Outcome State Fault Refusal :=
  .next s.halt

end Sys2Proof.Machine
end

