-- ==== Sys2Proof/Machine/Dispatch.lean ====
section
/-! DEFINITION. The handler of each instruction (R91): one arm per constructor of `Instr`, one direct call of its meaning. -/

namespace Sys2Proof.Machine

def exec (i : Instr) (s : State) : Host.Outcome State Fault Refusal :=
  match i with
  | .brk => Sys2Proof.Machine.execBrk s
  | .andIndX d => Sys2Proof.Machine.execAndIndX d s
  | .andZp d => Sys2Proof.Machine.execAndZp d s
  | .andImm d => Sys2Proof.Machine.execAndImm d s
  | .andAbs w => Sys2Proof.Machine.execAndAbs w s
  | .andIndY d => Sys2Proof.Machine.execAndIndY d s
  | .andZpX d => Sys2Proof.Machine.execAndZpX d s
  | .andAbsY w => Sys2Proof.Machine.execAndAbsY w s
  | .andAbsX w => Sys2Proof.Machine.execAndAbsX w s
  | .staIndX d => Sys2Proof.Machine.execStaIndX d s
  | .staZp d => Sys2Proof.Machine.execStaZp d s
  | .staAbs w => Sys2Proof.Machine.execStaAbs w s
  | .staIndY d => Sys2Proof.Machine.execStaIndY d s
  | .staZpX d => Sys2Proof.Machine.execStaZpX d s
  | .staAbsY w => Sys2Proof.Machine.execStaAbsY w s
  | .staAbsX w => Sys2Proof.Machine.execStaAbsX w s
  | .ldaIndX d => Sys2Proof.Machine.execLdaIndX d s
  | .ldaZp d => Sys2Proof.Machine.execLdaZp d s
  | .ldaImm d => Sys2Proof.Machine.execLdaImm d s
  | .tax => Sys2Proof.Machine.execTax s
  | .ldaAbs w => Sys2Proof.Machine.execLdaAbs w s
  | .ldaIndY d => Sys2Proof.Machine.execLdaIndY d s
  | .ldaZpX d => Sys2Proof.Machine.execLdaZpX d s
  | .ldaAbsY w => Sys2Proof.Machine.execLdaAbsY w s
  | .ldaAbsX w => Sys2Proof.Machine.execLdaAbsX w s
  | .inx => Sys2Proof.Machine.execInx s

end Sys2Proof.Machine
end

