-- ==== Sys2Proof/Machine/Loop.lean ====
section
/-! DEFINITION. The execution loop of the hardware, with the default opcode table: the phases Fetch, Dispatch, Execute and Advance as steps of
their own (R92-R97), and `pass`, one whole pass as a single step (R98, R99). -/

namespace Sys2Proof.Machine

/-- Fetch: read the byte at pc, advance pc by one, latch pc_after_fetch (R92). -/
def fetch (s : State) : State :=
  { s with
    pc := s.pc + 1#16
    loopState := .dispatch
    latch := some { pcAfterFetch := s.pc + 1#16, opcode := s.mem.read s.pc, descriptor := none } }

/-- Dispatch with the table T: look the byte up; no descriptor, or one with no handler, raises UnsupportedOpcode (R90, R91, R93). -/
def dispatch (T : OpTable) (s : State) : Pass :=
  match s.latch with
  | none => .refused (.stepNotEnabled s.loopState)
  | some l =>
    match T.lookup l.opcode with
    | none => .raise (.unsupportedOpcode l.opcode) s.raise
    | some d =>
      if d.mnemonic.wired then
        .next { s with loopState := .execute, latch := some { l with descriptor := some d } }
      else .raise (.unsupportedOpcode l.opcode) s.raise

/-- Advance: `if pc == pc_after_fetch then pc <- pc +16 (d.length - 1)`, and the loop state is Fetch again (R95). -/
def advance (length : Nat) (s : State) : State :=
  { s with
    pc := match s.latch with
      | some l => if s.pc = l.pcAfterFetch then s.pc + (BitVec.ofNat 16 length - 1#16) else s.pc
      | none => s.pc
    loopState := .fetch
    latch := none }

/-- What follows the handler: Halted when the handler was BRK (R96), a raised fault (R94), Advance otherwise (R95). -/
def afterHandler (length : Nat) (before : State) : Host.Outcome State Fault Refusal → Pass
  | .next t => if t.loopState = .halted then .halt { t with latch := none } else .next (advance length t)
  | .fault f => .raise f before.raise
  | .refused r => .refused r

/-- Execute: assemble the instruction from its descriptor and the operand bytes at pc, and run its handler (R94). With the
default table every descriptor has an instruction; one that had none would have no handler (R93). -/
def execute (s : State) : Pass :=
  match s.latch with
  | some { pcAfterFetch := _, opcode := b, descriptor := some d } =>
    match assemble d.mnemonic d.mode (s.mem.readBytes s.pc (d.length - 1)) with
    | none => .raise (.unsupportedOpcode b) s.raise
    | some i => afterHandler d.length s (exec i s)
  | _ => .refused (.stepNotEnabled s.loopState)

/-- One phase of the loop: the finer machine with the loop states of R20 as its steps. -/
def phase (s : State) : Pass :=
  match s.loopState with
  | .fetch => .next (fetch s)
  | .dispatch => dispatch Config.opTable s
  | .execute => execute s
  | .halted => .refused (.stepNotEnabled .halted)
  | .faulted => .refused (.stepNotEnabled .faulted)

/-- One instruction as one step, defined in loop state Fetch only (R99, R100). -/
def pass (s : State) : Pass :=
  match s.loopState with
  | .fetch =>
    match dispatch Config.opTable (fetch s) with
    | .next t => execute t
    | p => p
  | .dispatch => .refused (.stepNotEnabled .dispatch)
  | .execute => .refused (.stepNotEnabled .execute)
  | .halted => .refused (.stepNotEnabled .halted)
  | .faulted => .refused (.stepNotEnabled .faulted)

/-- The state the handler of an instruction with descriptor d runs in: pc past the opcode byte, loop state Execute, the
latches filled (R94). -/
def atExecute (s : State) (d : Descriptor) : State :=
  { s with
    pc := s.pc + 1#16
    loopState := .execute
    latch := some { pcAfterFetch := s.pc + 1#16, opcode := s.mem.read s.pc, descriptor := some d } }

end Sys2Proof.Machine
end

