-- ==== Sys2Proof/Machine/Step.lean ====
section
/-! DEFINITION. The step function of the machine, and where it fetches its next instruction. -/

namespace Sys2Proof.Machine

/-- One step: one pass of the loop (R99, R100). -/
def step (s : State) : Host.Outcome State Fault Refusal := (pass s).outcome

/-- s with the instruction whose bits are w (the first nbits of them; the rest are 0) stored at pc, where step fetches, in
ascending addresses with 16-bit wrap (R51); three bytes, the longest instruction. A machine that is halted or faulted is put
back to Fetch, as Run does (R154), so that the next step runs the instruction. -/
def State.withFetchWord (s : State) (nbits w : Nat) : State :=
  let v := w % 2 ^ nbits
  { s with
    mem := s.mem.writeBytes s.pc [BitVec.ofNat 8 v, BitVec.ofNat 8 (v / 2 ^ 8), BitVec.ofNat 8 (v / 2 ^ 16)]
    loopState := .fetch }

end Sys2Proof.Machine
end

