-- ==== Sys2Proof/Machine/TableMachine.lean ====
section
/-! DEFINITION. The machine over ANY opcode table, as the pseudocode of `Step` has it (R100): the handlers by mnemonic and mode
(R110, R119, R130, R140, R141, R145), reading their operands through the resolver, and the memory accesses of one pass
in order (R46). `OPTABLE` is a parameter of the hardware (R4); `step` is this machine at the default table. -/

namespace Sys2Proof.Machine

/-- How a handler ends (R94). -/
inductive Handled where
  | done (s : State)
  | halt (s : State)
  | raise (f : Fault)
  | noHandler
deriving DecidableEq, Repr

/-- Run what a resolving handler does with its effective address, or pass on the resolver's fault (R94). -/
def withEa (m : Mode) (s : State) (f : Word → State) : Handled :=
  match resolve m s with
  | .ok ea => .done (f ea)
  | .error e => .raise e

/-- The handler of a mnemonic, invoked with a mode (R90, R91). TAX, INX and BRK never look at the mode. -/
def handle (mn : Mnemonic) (m : Mode) (s : State) : Handled :=
  match mn with
  | .lda => withEa m s fun ea => s.setA (s.mem.read ea)
  | .and => withEa m s fun ea => s.setA (s.A &&& s.mem.read ea)
  | .sta => withEa m s fun ea => s.storeA ea
  | .tax => .done (s.setX s.A)
  | .inx => .done (s.setX (s.X + 1#8))
  | .brk => .halt s.halt
  | .unwired _ => .noHandler

/-- The state a handler runs in: pc past the opcode byte (R94). -/
def afterFetch (s : State) : State := { s with pc := s.pc + 1#16, latch := none }

/-- `Step` over the table T (R100). -/
def passTable (T : OpTable) (s : State) : Pass :=
  match s.loopState with
  | .fetch =>
    let s1 := afterFetch s
    match T.lookup (s.mem.read s.pc) with
    | none => .raise (.unsupportedOpcode (s.mem.read s.pc)) { s1 with loopState := .faulted }
    | some d =>
      match handle d.mnemonic d.mode s1 with
      | .done t =>
        .next { t with
          pc := if t.pc = s1.pc then t.pc + (BitVec.ofNat 16 d.length - 1#16) else t.pc
          loopState := .fetch }
      | .halt t => .halt t
      | .raise f => .raise f { s1 with loopState := .faulted }
      | .noHandler => .raise (.unsupportedOpcode (s.mem.read s.pc)) { s1 with loopState := .faulted }
  | l => .refused (.stepNotEnabled l)

/-- Execute over any table: invoke the handler of the latched descriptor, then what follows it (R94-R96). -/
def executeTable (s : State) : Pass :=
  match s.latch with
  | some { pcAfterFetch := _, opcode := b, descriptor := some d } =>
    match handle d.mnemonic d.mode s with
    | .done t => .next (advance d.length t)
    | .halt t => .halt { t with latch := none }
    | .raise f => .raise f s.raise
    | .noHandler => .raise (.unsupportedOpcode b) s.raise
  | _ => .refused (.stepNotEnabled s.loopState)

/-- One phase of the loop over the table T (R92-R97). -/
def phaseTable (T : OpTable) (s : State) : Pass :=
  match s.loopState with
  | .fetch => .next (fetch s)
  | .dispatch => dispatch T s
  | .execute => executeTable s
  | .halted => .refused (.stepNotEnabled .halted)
  | .faulted => .refused (.stepNotEnabled .faulted)

/-- One access to memory. -/
inductive Access where
  | read (a : Word)
  | write (a : Word) (v : Byte)
deriving DecidableEq, Repr

/-- The addresses the resolver reads, in order, with pc past the opcode byte (R46 (2) to (4), R82). -/
def resolverReads (m : Mode) (s : State) : List Word :=
  match m with
  | .immediate | .none => []
  | .zeroPage | .zeroPageX | .zeroPageY => [s.pc]
  | .absolute | .absoluteX | .absoluteY => [s.pc, s.pc + 1#16]
  | .indirectX => [s.pc, zext16 (s.mem.read s.pc + s.X), zext16 (s.mem.read s.pc + s.X + 1#8)]
  | .indirectY => [s.pc, zext16 (s.mem.read s.pc), zext16 (s.mem.read s.pc + 1#8)]

/-- The accesses a handler makes: the resolver's, then the data access (R46 (5)). -/
def handlerAccesses (mn : Mnemonic) (m : Mode) (s : State) : List Access :=
  match mn, resolve m s with
  | .lda, .ok ea | .and, .ok ea => (resolverReads m s).map Access.read ++ [.read ea]
  | .sta, .ok ea => (resolverReads m s).map Access.read ++ [.write ea s.A]
  | _, _ => []

/-- The memory accesses of one pass from loop state Fetch, in the order of R46. -/
def accessesTable (T : OpTable) (s : State) : List Access :=
  .read s.pc ::
    match T.lookup (s.mem.read s.pc) with
    | none => []
    | some d => handlerAccesses d.mnemonic d.mode (afterFetch s)

/-- The addresses read. -/
def readAddresses (as : List Access) : List Word :=
  as.filterMap fun | .read a => some a | .write _ _ => none

/-- The writes, applied in order. -/
def applyWrites : List Access → Memory → Memory
  | [], m => m
  | .read _ :: as, m => applyWrites as m
  | .write a v :: as, m => applyWrites as (m.write a v)

end Sys2Proof.Machine
end

