-- ==== Sys2Proof/Machine/HostOps.lean ====
section
/-! DEFINITION. The host operations on the state of one context (48_host_operations.md), over any opcode table T (R4), for a context all
of whose registers hold values and on which no Run is in progress; Context.lean adds the registers that have none and the Run
in progress. No instruction invokes them. At `Config.opTable` the passes are the steps of the hardware. -/

namespace Sys2Proof.Machine

/-- `Load(bytes)`: nothing is written when the program does not fit; otherwise the bytes go to 0x8000 on, pc becomes 0x8000
and the reset vector 0x8000, in this order (R150, R172, R195). -/
def State.load (s : State) (bytes : List Byte) : Except Fault State :=
  if bytes.length > Config.loadMax then .error .outOfBoundsLoad
  else .ok
    { s with
      mem := (s.mem.writeBytes Config.loadBase bytes).writeWord Config.resetVector Config.loadBase
      pc := Config.loadBase
      loopState := .fetch
      latch := none }

/-- `Reset()`: A, X, Y and P zero, pc from the reset vector, memory untouched, loop state Fetch from any loop state (R151). -/
def State.hostReset (s : State) : State :=
  { s with
    A := 0x00#8
    X := 0x00#8
    Y := 0x00#8
    P := 0x00#8
    pc := s.mem.readWord Config.resetVector
    loopState := .fetch
    latch := none }

/-- `ReadByte(address)`, the address taken modulo 65536 (R152). -/
def State.readByte (s : State) (address : Nat) : Byte := s.mem.read (BitVec.ofNat 16 address)

/-- `WriteByte(address, byte)` (R153). -/
def State.writeByte (s : State) (address : Nat) (v : Byte) : State :=
  { s with mem := s.mem.write (BitVec.ofNat 16 address) v }

/-- `ReadWord(address)` (R156). -/
def State.readWordAt (s : State) (address : Nat) : Word := s.mem.readWord (BitVec.ofNat 16 address)

/-- `WriteWord(address, w)` (R157). -/
def State.writeWordAt (s : State) (address : Nat) (w : Word) : State :=
  { s with mem := s.mem.writeWord (BitVec.ofNat 16 address) w }

/-- What Run has come to: not yet at an end, a normal halt, a fault, or refused. -/
inductive RunResult where
  | running
  | halted
  | fault (f : Fault)
  | refused (r : Refusal)
deriving DecidableEq, Repr

/-- The loop of Run over the table T, followed for at most `fuel` instructions: it ends at the first halt or fault (R154).
`running` says only that the model followed it no further (log 13): Run itself has no step limit and has not returned (R154,
R197). -/
def runFrom (T : OpTable) : Nat → State → RunResult × State
  | 0, s => (.running, s)
  | fuel + 1, s =>
    match passTable T s with
    | .next t => runFrom T fuel t
    | .halt t => (.halted, t)
    | .raise f t => (.fault f, t)
    | .refused r => (.refused r, s)

/-- How Run begins: at the current pc, with everything as it stands, from any loop state (R154). -/
def State.beginRun (s : State) : State := { s with loopState := .fetch, latch := none }

/-- `Run()`, followed for at most `fuel` instructions (R154). -/
def State.run (T : OpTable) (fuel : Nat) (s : State) : RunResult × State := runFrom T fuel s.beginRun

/-- `LoadAndRun(bytes)`: Load, Reset, Run; neither Reset nor Run is performed when Load fails (R155). -/
def State.loadAndRun (T : OpTable) (fuel : Nat) (s : State) (bytes : List Byte) : RunResult × State :=
  match s.load bytes with
  | .error f => (.fault f, s)
  | .ok t => t.hostReset.run T fuel

end Sys2Proof.Machine
end

