-- ==== Sys2Proof/Machine/Context.lean ====
section
/-! DEFINITION. An execution context from its creation on (R25, R26): which registers hold a value yet, whether a Run is in
progress, every host operation as one function over the opcode table T (R4, R22), and several contexts side by side. -/

namespace Sys2Proof.Machine

/-- Which registers hold a value. At creation none does (R25). -/
structure Valued where
  A : Bool
  X : Bool
  Y : Bool
  P : Bool
  pc : Bool
deriving DecidableEq, Repr

/-- No register holds a value. -/
def Valued.nothing : Valued := ⟨false, false, false, false, false⟩

/-- Every register holds a value. -/
def Valued.everything : Valued := ⟨true, true, true, true, true⟩

/-- Does the register hold a value? -/
def Valued.has (v : Valued) : Reg → Bool
  | .A => v.A
  | .X => v.X
  | .Y => v.Y
  | .P => v.P
  | .pc => v.pc

/-- The register has been given a value. -/
def Valued.give (v : Valued) : Reg → Valued
  | .A => { v with A := true }
  | .X => { v with X := true }
  | .Y => { v with Y := true }
  | .P => { v with P := true }
  | .pc => { v with pc := true }

/-- An execution context: its state, which registers hold a value, and whether a Run is in progress on it (R45, R159). -/
structure Context where
  state         : State
  valued        : Valued
  runInProgress : Bool
deriving DecidableEq, Repr

/-- The context just created with the memory image mem0 (`MEM0`): no register holds a value, loop state Fetch (R25, R191). -/
def Context.create (mem0 : Memory) : Context where
  state :=
    { A := Config.createdByte 0
      X := Config.createdByte 1
      Y := Config.createdByte 2
      P := Config.createdByte 3
      pc := Config.createdPc
      mem := mem0
      loopState := .fetch
      latch := none }
  valued := Valued.nothing
  runInProgress := false

/-- The registers a handler reads itself (the "Reads" lines of R110, R119, R130, R140, R141, R145). SetZN keeps six bits of P
without reading it (R17). -/
def handlerReads : Mnemonic → List Reg
  | .and | .sta | .tax => [.A]
  | .inx => [.X]
  | .lda | .brk | .unwired _ => []

/-- The registers a mode's resolver reads besides pc (40_addressing_resolver.md section 3). -/
def modeReads : Mode → List Reg
  | .zeroPageX | .absoluteX | .indirectX => [.X]
  | .zeroPageY | .absoluteY | .indirectY => [.Y]
  | .immediate | .zeroPage | .absolute | .none => []

/-- The registers an instruction reads besides pc: the handler's, and the mode's where the handler resolves it. One that
resolves mode None faults before it reads any (R80, R91). -/
def descriptorReads (d : Descriptor) : List Reg :=
  if d.mnemonic.resolves then
    if d.mode = .none then [] else handlerReads d.mnemonic ++ modeReads d.mode
  else handlerReads d.mnemonic

/-- The registers a handler writes whole (R110, R130, R140, R141). DESIGN CHOICE: such a write gives the register a value; R25 and
D8 name only Reset, Load and a host write as what gives one (log 17). -/
def handlerWrites : Mnemonic → List Reg
  | .lda | .and => [.A]
  | .tax | .inx => [.X]
  | .sta | .brk | .unwired _ => []

/-- The descriptor of the instruction at pc, if its byte has one in the table T. -/
def State.descriptorAtPc (T : OpTable) (s : State) : Option Descriptor := T.lookup (s.mem.read s.pc)

/-- A register the next instruction reads that holds no value (R25): pc first, then the handler's and the mode's. -/
def Context.missing (T : OpTable) (c : Context) : Option Reg :=
  if c.valued.pc = false then some .pc
  else
    match c.state.descriptorAtPc T with
    | none => none
    | some d => (descriptorReads d).find? (fun r => !c.valued.has r)

/-- Which registers hold a value after the instruction at pc: those from before and, by the model's choice, those its handler
writes whole (log 17). -/
def Context.valuedAfter (T : OpTable) (c : Context) : Valued :=
  match c.state.descriptorAtPc T with
  | none => c.valued
  | some d => (handlerWrites d.mnemonic).foldl Valued.give c.valued

/-- The loop of Run on a context, followed for at most `fuel` instructions: as `runFrom`, and refused before an instruction
that would read a register without a value (R25, log 17). Where the model follows it no further the Run is still in progress;
in every other case it is over. -/
def Context.runFrom (T : OpTable) : Nat → Context → RunResult × Context
  | 0, c => (.running, { c with runInProgress := true })
  | fuel + 1, c =>
    match c.missing T with
    | some r => (.refused (.valueless r), { c with runInProgress := false })
    | none =>
      match passTable T c.state with
      | .next t => Context.runFrom T fuel { c with state := t, valued := c.valuedAfter T }
      | .halt t => (.halted, ⟨t, c.valuedAfter T, false⟩)
      | .raise f t => (.fault f, ⟨t, c.valued, false⟩)
      | .refused r => (.refused r, { c with runInProgress := false })

/-- `Run()` on a context: refused while pc has no value (R154). -/
def Context.run (T : OpTable) (fuel : Nat) (c : Context) : RunResult × Context :=
  if c.valued.pc = false then (.refused (.valueless .pc), c)
  else Context.runFrom T fuel { c with state := c.state.beginRun }

/-- The Run in progress, followed for up to `fuel` instructions more; nothing happens where there is none. No move of the host:
it is the machine that goes on (R45). -/
def Context.goOn (T : OpTable) (fuel : Nat) (c : Context) : Option RunResult × Context :=
  if c.runInProgress then
    let r := Context.runFrom T fuel c
    (some r.1, r.2)
  else (none, c)

/-- The host operations, with what the host supplies (the table of R161). Addresses are naturals, taken modulo 65536. -/
inductive HostOp where
  | load (bytes : List Byte)
  | reset
  | run
  | loadAndRun (bytes : List Byte)
  | readByte (address : Nat)
  | writeByte (address : Nat) (v : Byte)
  | readWord (address : Nat)
  | writeWord (address : Nat) (w : Word)
  | readReg (r : Reg)
  | writeReg (v : RegVal)
deriving DecidableEq, Repr

/-- What a host operation returns. `ran running` is no return: the Run is still in progress (R154, R197). -/
inductive Reply where
  | ok
  | byte (v : Byte)
  | word (w : Word)
  | reg (v : RegVal)
  | fault (f : Fault)
  | refused (r : Refusal)
  | ran (r : RunResult)
deriving DecidableEq, Repr

/-- `Load` on a context: pc has a value afterwards, the other registers are as they were (R150). -/
def Context.load (c : Context) (bytes : List Byte) : Except Fault Context :=
  match c.state.load bytes with
  | .error f => .error f
  | .ok t => .ok { c with state := t, valued := c.valued.give .pc }

/-- `Reset` on a context: every register has a value afterwards (R151). -/
def Context.reset (c : Context) : Context := { c with state := c.state.hostReset, valued := Valued.everything }

/-- One host operation on a context on which no Run is in progress: its reply and the context after it. `fuel` bounds how far
the model follows a Run; it is nothing the host supplies. -/
def Context.perform (T : OpTable) (fuel : Nat) (c : Context) : HostOp → Reply × Context
  | .load bytes =>
    match c.load bytes with
    | .error f => (.fault f, c)
    | .ok c' => (.ok, c')
  | .reset => (.ok, c.reset)
  | .run => let r := c.run T fuel; (.ran r.1, r.2)
  | .loadAndRun bytes =>
    match c.load bytes with
    | .error f => (.fault f, c)
    | .ok c' => let r := c'.reset.run T fuel; (.ran r.1, r.2)
  | .readByte a => (.byte (c.state.readByte a), c)
  | .writeByte a v => (.ok, { c with state := c.state.writeByte a v })
  | .readWord a => (.word (c.state.readWordAt a), c)
  | .writeWord a w => (.ok, { c with state := c.state.writeWordAt a w })
  | .readReg r => if c.valued.has r then (.reg (c.state.readReg r), c) else (.refused (.valueless r), c)
  | .writeReg v => (.ok, { c with state := c.state.writeReg v, valued := c.valued.give v.reg })

/-- A host operation issued on a context. While a Run is in progress the host has no move (R45, R159): the operation, Reset
and Load included, is refused and changes nothing. That it is refused by name is the model's choice (log 24). -/
def Context.call (T : OpTable) (fuel : Nat) (c : Context) (op : HostOp) : Reply × Context :=
  if c.runInProgress then (.refused .runInProgress, c) else c.perform T fuel op

/-- The host operations of a list, one after the other (R159, R161): the replies in order and the context after them. Behind a
Run that the model followed to no end all are refused (log 24). -/
def Context.calls (T : OpTable) (fuel : Nat) (c : Context) : List HostOp → List Reply × Context
  | [] => ([], c)
  | op :: ops =>
    let r := c.call T fuel op
    let rs := Context.calls T fuel r.2 ops
    (r.1 :: rs.1, rs.2)

/-- Several execution contexts in one host (R26, R160). -/
abbrev Environment := List Context

/-- A host operation on the i-th context; there is no reply from a context that does not exist. The contexts share the table T
and nothing else (R160). -/
def Environment.call (T : OpTable) (fuel : Nat) (e : Environment) (i : Nat) (op : HostOp) : Option Reply × Environment :=
  match e[i]? with
  | none => (none, e)
  | some c => (some (c.call T fuel op).1, e.set i (c.call T fuel op).2)

end Sys2Proof.Machine
end

