-- ==== Sys2Proof/Safety.lean ====
section
/-! DEFINITION. What claims are about: the invariant of the states between instructions, what a program started by Reset can
rely on, Run as the closure of Step, and what a successful end is (R162). -/

namespace Sys2Proof.Machine

/-- Between two instructions: memory in canonical form, nothing of an instruction live, and a loop state that occurs between
instructions (R19, R20, R21). -/
abbrev State.Inv (s : State) : Prop :=
  s.mem.wf = true ∧ s.latch = none ∧ (s.loopState = .fetch ∨ s.loopState = .halted ∨ s.loopState = .faulted)

/-- What holds in every state of a program started by Reset with no host write in between: Y is zero (R12, R199) and P is one of
0x00, 0x02, 0x80 (R16). -/
abbrev State.SinceReset (s : State) : Prop :=
  s.Y = 0x00#8 ∧ (s.P = 0x00#8 ∨ s.P = 0x02#8 ∨ s.P = 0x80#8)

/-- The states Run goes through over the table T: the reflexive and transitive closure of the passes that end in `next`
(R154). -/
inductive Steps (T : OpTable) : State → State → Prop where
  | refl (s : State) : Steps T s s
  | tail {s t u : State} : Steps T s t → passTable T t = .next u → Steps T s u

/-- Run from s ends in a normal halt, in state t (R154, R162). -/
def HaltsIn (T : OpTable) (s t : State) : Prop := ∃ u, Steps T s u ∧ passTable T u = .halt t

/-- Run from s ends in the fault f, in state t; never a successful end (R97, R162). -/
def FaultsIn (T : OpTable) (s : State) (f : Fault) (t : State) : Prop := ∃ u, Steps T s u ∧ passTable T u = .raise f t

/-- A safe run: no state it goes through raises a fault. -/
def NeverFaults (T : OpTable) (s : State) : Prop := ∀ f t, ¬ FaultsIn T s f t

/-- The machine is about to fetch the opcode byte b. -/
abbrev State.atOpcode (s : State) (b : Byte) : Prop := s.loopState = .fetch ∧ s.mem.read s.pc = b

/-- The operand byte of the instruction at pc: `mem[a +16 1]` (R53). -/
def State.operandByte (s : State) : Byte := s.mem.read (s.pc + 1#16)

/-- The operand word of the instruction at pc: `{mem[a +16 2], mem[a +16 1]}` (R53). -/
def State.operandWord (s : State) : Word := cat (s.mem.read (s.pc + 2#16)) (s.mem.read (s.pc + 1#16))

/-- The address an instruction stores to, in the state it runs in, by the expression its meaning uses; none when it stores
nothing. -/
def storeAddress (i : Instr) (s : State) : Option Word :=
  match i with
  | .staZp d => some (eaZeroPage d)
  | .staZpX d => some (eaZeroPageX d s)
  | .staAbs w => some (eaAbsolute w)
  | .staAbsX w => some (eaAbsoluteX w s)
  | .staAbsY w => some (eaAbsoluteY w s)
  | .staIndX d => some (eaIndirectX d s)
  | .staIndY d => some (eaIndirectY d s)
  | _ => none

/-- The 26 opcode bytes of the instruction set (R56). -/
def supportedBytes : List Byte :=
  [0x00#8, 0x21#8, 0x25#8, 0x29#8, 0x2D#8, 0x31#8, 0x35#8, 0x39#8, 0x3D#8,
    0x81#8, 0x85#8, 0x8D#8, 0x91#8, 0x95#8, 0x99#8, 0x9D#8,
    0xA1#8, 0xA5#8, 0xA9#8, 0xAA#8, 0xAD#8, 0xB1#8, 0xB5#8, 0xB9#8, 0xBD#8, 0xE8#8]

/-- Some instruction of the table T, at the pass from s, calls the resolver with mode None. -/
def resolvesNone (T : OpTable) (s : State) : Prop :=
  ∃ d, T.lookup (s.mem.read s.pc) = some d ∧ d.mode = .none ∧ d.mnemonic.resolves = true

end Sys2Proof.Machine
end

