-- ==== Sys2Proof/Certificates/Slice0/Obligations.lean ====
section
/-! DEFINITION. The statements for the provers. Each docstring names the rules of the spec it comes from. -/

open Sys2Proof Sys2Proof.Machine

/-- A step of the machine at an LDA or AND opcode byte (0xA9, 0x29: Immediate) sets A to a byte v, sets Z and N from v by
SetZN, leaves pc 2 bytes further, and changes nothing else, for every state in loop state Fetch and every operand; v
is the byte at the effective address (LDA) or its bitwise AND with the old A (AND); the effective address is written
out from the rule's pseudocode; the bytes of each form are as the rule's Encoding line gives them. (R111, R131) -/
def Obligations.LoadImmediateSteps : Prop :=
  (∀ s : State, s.atOpcode 0xA9#8 → ∀ v : Byte, v = s.operandByte →
      step s = .next { s with A := v, P := setZN v s.P, pc := s.pc + 2#16, latch := none }) ∧
    (∀ d, encode (.ldaImm d) = [0xA9#8, d]) ∧
    (∀ s : State, s.atOpcode 0x29#8 → ∀ v : Byte, v = s.A &&& s.operandByte →
      step s = .next { s with A := v, P := setZN v s.P, pc := s.pc + 2#16, latch := none }) ∧
    (∀ d, encode (.andImm d) = [0x29#8, d])

/-- A step of the machine at an LDA or AND opcode byte (0xA5, 0xB5, 0x25, 0x35: ZeroPage and ZeroPageX) sets A to a byte
v, sets Z and N from v by SetZN, leaves pc 2 bytes further, and changes nothing else, for every state in loop state
Fetch and every operand; v is the byte at the effective address (LDA) or its bitwise AND with the old A (AND); the
effective address is written out from the rule's pseudocode; the bytes of each form are as the rule's Encoding line
gives them. (R112, R113, R132, R133) -/
def Obligations.LoadZeroPageSteps : Prop :=
  (∀ s : State, s.atOpcode 0xA5#8 → ∀ v : Byte, v = s.mem.read (zext16 s.operandByte) →
      step s = .next { s with A := v, P := setZN v s.P, pc := s.pc + 2#16, latch := none }) ∧
    (∀ s : State, s.atOpcode 0xB5#8 → ∀ v : Byte, v = s.mem.read (zext16 (s.operandByte + s.X)) →
      step s = .next { s with A := v, P := setZN v s.P, pc := s.pc + 2#16, latch := none }) ∧
    (∀ d, encode (.ldaZp d) = [0xA5#8, d]) ∧
    (∀ d, encode (.ldaZpX d) = [0xB5#8, d]) ∧
    (∀ s : State, s.atOpcode 0x25#8 → ∀ v : Byte, v = s.A &&& s.mem.read (zext16 s.operandByte) →
      step s = .next { s with A := v, P := setZN v s.P, pc := s.pc + 2#16, latch := none }) ∧
    (∀ s : State, s.atOpcode 0x35#8 → ∀ v : Byte, v = s.A &&& s.mem.read (zext16 (s.operandByte + s.X)) →
      step s = .next { s with A := v, P := setZN v s.P, pc := s.pc + 2#16, latch := none }) ∧
    (∀ d, encode (.andZp d) = [0x25#8, d]) ∧
    (∀ d, encode (.andZpX d) = [0x35#8, d])

/-- A step of the machine at an LDA or AND opcode byte (0xAD, 0xBD, 0xB9, 0x2D, 0x3D, 0x39: Absolute, AbsoluteX and
AbsoluteY) sets A to a byte v, sets Z and N from v by SetZN, leaves pc 3 bytes further, and changes nothing else, for
every state in loop state Fetch and every operand; v is the byte at the effective address (LDA) or its bitwise AND
with the old A (AND); the effective address is written out from the rule's pseudocode; the bytes of each form are as
the rule's Encoding line gives them. (R114, R115, R116, R134, R135, R136) -/
def Obligations.LoadAbsoluteSteps : Prop :=
  (∀ s : State, s.atOpcode 0xAD#8 → ∀ v : Byte, v = s.mem.read (s.operandWord) →
      step s = .next { s with A := v, P := setZN v s.P, pc := s.pc + 3#16, latch := none }) ∧
    (∀ s : State, s.atOpcode 0xBD#8 → ∀ v : Byte, v = s.mem.read (s.operandWord + zext16 s.X) →
      step s = .next { s with A := v, P := setZN v s.P, pc := s.pc + 3#16, latch := none }) ∧
    (∀ s : State, s.atOpcode 0xB9#8 → ∀ v : Byte, v = s.mem.read (s.operandWord + zext16 s.Y) →
      step s = .next { s with A := v, P := setZN v s.P, pc := s.pc + 3#16, latch := none }) ∧
    (∀ w, encode (.ldaAbs w) = [0xAD#8, lo w, hi w]) ∧
    (∀ w, encode (.ldaAbsX w) = [0xBD#8, lo w, hi w]) ∧
    (∀ w, encode (.ldaAbsY w) = [0xB9#8, lo w, hi w]) ∧
    (∀ s : State, s.atOpcode 0x2D#8 → ∀ v : Byte, v = s.A &&& s.mem.read (s.operandWord) →
      step s = .next { s with A := v, P := setZN v s.P, pc := s.pc + 3#16, latch := none }) ∧
    (∀ s : State, s.atOpcode 0x3D#8 → ∀ v : Byte, v = s.A &&& s.mem.read (s.operandWord + zext16 s.X) →
      step s = .next { s with A := v, P := setZN v s.P, pc := s.pc + 3#16, latch := none }) ∧
    (∀ s : State, s.atOpcode 0x39#8 → ∀ v : Byte, v = s.A &&& s.mem.read (s.operandWord + zext16 s.Y) →
      step s = .next { s with A := v, P := setZN v s.P, pc := s.pc + 3#16, latch := none }) ∧
    (∀ w, encode (.andAbs w) = [0x2D#8, lo w, hi w]) ∧
    (∀ w, encode (.andAbsX w) = [0x3D#8, lo w, hi w]) ∧
    (∀ w, encode (.andAbsY w) = [0x39#8, lo w, hi w])

/-- A step of the machine at an LDA or AND opcode byte (0xA1, 0xB1, 0x21, 0x31: IndirectX and IndirectY) sets A to a byte
v, sets Z and N from v by SetZN, leaves pc 2 bytes further, and changes nothing else, for every state in loop state
Fetch and every operand; v is the byte at the effective address (LDA) or its bitwise AND with the old A (AND); the
effective address is written out from the rule's pseudocode; the bytes of each form are as the rule's Encoding line
gives them. (R117, R118, R137, R138) -/
def Obligations.LoadIndirectSteps : Prop :=
  (∀ s : State, s.atOpcode 0xA1#8 → ∀ v : Byte, v = s.mem.read (cat (s.mem.read (zext16 (s.operandByte + s.X + 1#8))) (s.mem.read (zext16 (s.operandByte + s.X)))) →
      step s = .next { s with A := v, P := setZN v s.P, pc := s.pc + 2#16, latch := none }) ∧
    (∀ s : State, s.atOpcode 0xB1#8 → ∀ v : Byte, v = s.mem.read (cat (s.mem.read (zext16 (s.operandByte + 1#8))) (s.mem.read (zext16 s.operandByte)) + zext16 s.Y) →
      step s = .next { s with A := v, P := setZN v s.P, pc := s.pc + 2#16, latch := none }) ∧
    (∀ d, encode (.ldaIndX d) = [0xA1#8, d]) ∧
    (∀ d, encode (.ldaIndY d) = [0xB1#8, d]) ∧
    (∀ s : State, s.atOpcode 0x21#8 → ∀ v : Byte, v = s.A &&& s.mem.read (cat (s.mem.read (zext16 (s.operandByte + s.X + 1#8))) (s.mem.read (zext16 (s.operandByte + s.X)))) →
      step s = .next { s with A := v, P := setZN v s.P, pc := s.pc + 2#16, latch := none }) ∧
    (∀ s : State, s.atOpcode 0x31#8 → ∀ v : Byte, v = s.A &&& s.mem.read (cat (s.mem.read (zext16 (s.operandByte + 1#8))) (s.mem.read (zext16 s.operandByte)) + zext16 s.Y) →
      step s = .next { s with A := v, P := setZN v s.P, pc := s.pc + 2#16, latch := none }) ∧
    (∀ d, encode (.andIndX d) = [0x21#8, d]) ∧
    (∀ d, encode (.andIndY d) = [0x31#8, d])

/-- A step of the machine at an STA opcode byte (0x85, 0x95: ZeroPage and ZeroPageX) stores A into the byte at the
effective address and changes no register and no flag, leaves pc 2 bytes further, and changes nothing else, for every
state in loop state Fetch and every operand; the effective address is written out from the rule's pseudocode; the
bytes of each form are as the rule's Encoding line gives them. (R120, R121) -/
def Obligations.StaZeroPageSteps : Prop :=
  (∀ s : State, s.atOpcode 0x85#8 → step s = .next
      { s with mem := s.mem.write (zext16 s.operandByte) s.A, pc := s.pc + 2#16, latch := none }) ∧
    (∀ s : State, s.atOpcode 0x95#8 → step s = .next
      { s with mem := s.mem.write (zext16 (s.operandByte + s.X)) s.A, pc := s.pc + 2#16, latch := none }) ∧
    (∀ d, encode (.staZp d) = [0x85#8, d]) ∧
    (∀ d, encode (.staZpX d) = [0x95#8, d])

/-- A step of the machine at an STA opcode byte (0x8D, 0x9D, 0x99: Absolute, AbsoluteX and AbsoluteY) stores A into the
byte at the effective address and changes no register and no flag, leaves pc 3 bytes further, and changes nothing
else, for every state in loop state Fetch and every operand; its memory accesses are the reads of its three bytes and
the one write at the effective address, in this order, so that nothing is read or written at the address with the
uncorrected high byte; the effective address is written out from the rule's pseudocode; the bytes of each form are as
the rule's Encoding line gives them. (R122, R123, R124) -/
def Obligations.StaAbsoluteSteps : Prop :=
  (∀ s : State, s.atOpcode 0x8D#8 →
      step s = .next { s with mem := s.mem.write (s.operandWord) s.A, pc := s.pc + 3#16, latch := none } ∧
      accessesTable Config.opTable s =
        [.read s.pc, .read (s.pc + 1#16), .read (s.pc + 2#16), .write (s.operandWord) s.A]) ∧
    (∀ s : State, s.atOpcode 0x9D#8 →
      step s = .next { s with mem := s.mem.write (s.operandWord + zext16 s.X) s.A, pc := s.pc + 3#16, latch := none } ∧
      accessesTable Config.opTable s =
        [.read s.pc, .read (s.pc + 1#16), .read (s.pc + 2#16), .write (s.operandWord + zext16 s.X) s.A]) ∧
    (∀ s : State, s.atOpcode 0x99#8 →
      step s = .next { s with mem := s.mem.write (s.operandWord + zext16 s.Y) s.A, pc := s.pc + 3#16, latch := none } ∧
      accessesTable Config.opTable s =
        [.read s.pc, .read (s.pc + 1#16), .read (s.pc + 2#16), .write (s.operandWord + zext16 s.Y) s.A]) ∧
    (∀ w, encode (.staAbs w) = [0x8D#8, lo w, hi w]) ∧
    (∀ w, encode (.staAbsX w) = [0x9D#8, lo w, hi w]) ∧
    (∀ w, encode (.staAbsY w) = [0x99#8, lo w, hi w])

/-- A step of the machine at an STA opcode byte (0x81, 0x91: IndirectX and IndirectY) stores A into the byte at the
effective address and changes no register and no flag, leaves pc 2 bytes further, and changes nothing else, for every
state in loop state Fetch and every operand; the effective address is written out from the rule's pseudocode; the
bytes of each form are as the rule's Encoding line gives them. (R125, R126) -/
def Obligations.StaIndirectSteps : Prop :=
  (∀ s : State, s.atOpcode 0x81#8 → step s = .next
      { s with mem := s.mem.write (cat (s.mem.read (zext16 (s.operandByte + s.X + 1#8))) (s.mem.read (zext16 (s.operandByte + s.X)))) s.A, pc := s.pc + 2#16, latch := none }) ∧
    (∀ s : State, s.atOpcode 0x91#8 → step s = .next
      { s with mem := s.mem.write (cat (s.mem.read (zext16 (s.operandByte + 1#8))) (s.mem.read (zext16 s.operandByte)) + zext16 s.Y) s.A, pc := s.pc + 2#16, latch := none }) ∧
    (∀ d, encode (.staIndX d) = [0x81#8, d]) ∧
    (∀ d, encode (.staIndY d) = [0x91#8, d])

/-- For every state in loop state Fetch with 0xAA at pc, a step sets X to A, P to SetZN of A, pc one byte further, changes
nothing else, and reads no memory but the opcode byte; its encoding is the one byte AA. (R140) -/
def Obligations.TaxStep : Prop :=
  (∀ s : State, s.atOpcode 0xAA#8 →
      step s = .next { s with X := s.A, P := setZN s.A s.P, pc := s.pc + 1#16, latch := none } ∧
      accessesTable Config.opTable s = [.read s.pc]) ∧
    encode .tax = [0xAA#8]

/-- For every state in loop state Fetch with 0xE8 at pc, a step sets X to v, the byte whose number is (X + 1) mod 256,
sets P to SetZN of v, pc one byte further, changes nothing else, and reads no memory but the opcode byte; Z ends set
exactly when the old X was 0xFF, N exactly when the old X was in 0x7F..0xFE; its encoding is the one byte E8. (R141) -/
def Obligations.InxStep : Prop :=
  (∀ s : State, s.atOpcode 0xE8#8 →
      ∃ v : Byte, v.toNat = (s.X.toNat + 1) % 256 ∧
        step s = .next { s with X := v, P := setZN v s.P, pc := s.pc + 1#16, latch := none } ∧
        (flagZ (setZN v s.P) = true ↔ s.X = 0xFF#8) ∧
        (flagN (setZN v s.P) = true ↔ 0x7F ≤ s.X.toNat ∧ s.X.toNat ≤ 0xFE) ∧
        accessesTable Config.opTable s = [.read s.pc]) ∧
    encode .inx = [0xE8#8]

/-- For every state in loop state Fetch with 0x00 at pc, the pass ends in a halt, and the step's next state is the same
state with loop state Halted and pc one byte further: no register, flag or memory cell changes, and no memory but the
opcode byte is read; its encoding is the one byte 00. (R145) -/
def Obligations.BrkStep : Prop :=
  (∀ s : State, s.atOpcode 0x00#8 →
      pass s = .halt { s with pc := s.pc + 1#16, loopState := .halted, latch := none } ∧
      step s = .next { s with pc := s.pc + 1#16, loopState := .halted, latch := none } ∧
      accessesTable Config.opTable s = [.read s.pc]) ∧
    encode .brk = [0x00#8]

/-- For every mode and state: where the resolver answers an address ea, the LDA handler sets A to the byte v at ea and P
to SetZN of v, the AND handler does so with v = A & byte at ea, and the STA handler writes A at ea and nothing else;
where the mode is None each of the three raises InvalidAddressingUse; the resolver fails for no other mode. (R110,
R119, R130) -/
def Obligations.HandlersWorkForEveryMode : Prop :=
  ∀ (m : Mode) (s : State),
    (∀ ea, resolve m s = .ok ea →
      handle .lda m s = .done { s with A := s.mem.read ea, P := setZN (s.mem.read ea) s.P } ∧
      handle .and m s = .done { s with A := s.A &&& s.mem.read ea, P := setZN (s.A &&& s.mem.read ea) s.P } ∧
      handle .sta m s = .done { s with mem := s.mem.write ea s.A }) ∧
    (m = .none → handle .lda m s = .raise .invalidAddressingUse ∧ handle .and m s = .raise .invalidAddressingUse ∧
      handle .sta m s = .raise .invalidAddressingUse) ∧
    (m ≠ .none → ∃ ea, resolve m s = .ok ea)

/-- For every operand and every state, exec of each LDA form answers the next state in which A is the byte at the form's
effective address (the operand byte itself in the Immediate form), P is SetZN of that byte, and everything else is as
before; pc is moved by the loop, not by the meaning. (R94, R110, R111, R112, R113, R114, R115, R116, R117, R118) -/
def Obligations.LdaMeaningsComplete : Prop :=
  ∀ (d : Byte) (w : Word) (s : State),
    exec (.ldaImm d) s = .next { s with A := d, P := setZN d s.P } ∧
    exec (.ldaZp d) s = .next { s with A := (s.mem.read (zext16 d)), P := setZN (s.mem.read (zext16 d)) s.P } ∧
    exec (.ldaZpX d) s = .next { s with A := (s.mem.read (zext16 (d + s.X))), P := setZN (s.mem.read (zext16 (d + s.X))) s.P } ∧
    exec (.ldaAbs w) s = .next { s with A := (s.mem.read (w)), P := setZN (s.mem.read (w)) s.P } ∧
    exec (.ldaAbsX w) s = .next { s with A := (s.mem.read (w + zext16 s.X)), P := setZN (s.mem.read (w + zext16 s.X)) s.P } ∧
    exec (.ldaAbsY w) s = .next { s with A := (s.mem.read (w + zext16 s.Y)), P := setZN (s.mem.read (w + zext16 s.Y)) s.P } ∧
    exec (.ldaIndX d) s = .next { s with A := (s.mem.read (s.mem.readZP (d + s.X))), P := setZN (s.mem.read (s.mem.readZP (d + s.X))) s.P } ∧
    exec (.ldaIndY d) s = .next { s with A := (s.mem.read (s.mem.readZP d + zext16 s.Y)), P := setZN (s.mem.read (s.mem.readZP d + zext16 s.Y)) s.P }

/-- For every operand and every state, exec of each STA form answers the next state in which A is written at the form's
effective address and everything else is as before. (R94, R119, R120, R121, R122, R123, R124, R125, R126) -/
def Obligations.StaMeaningsComplete : Prop :=
  ∀ (d : Byte) (w : Word) (s : State),
    exec (.staZp d) s = .next { s with mem := s.mem.write (zext16 d) s.A } ∧
    exec (.staZpX d) s = .next { s with mem := s.mem.write (zext16 (d + s.X)) s.A } ∧
    exec (.staAbs w) s = .next { s with mem := s.mem.write (w) s.A } ∧
    exec (.staAbsX w) s = .next { s with mem := s.mem.write (w + zext16 s.X) s.A } ∧
    exec (.staAbsY w) s = .next { s with mem := s.mem.write (w + zext16 s.Y) s.A } ∧
    exec (.staIndX d) s = .next { s with mem := s.mem.write (s.mem.readZP (d + s.X)) s.A } ∧
    exec (.staIndY d) s = .next { s with mem := s.mem.write (s.mem.readZP d + zext16 s.Y) s.A }

/-- For every operand and every state, exec of each AND form answers the next state in which A is its bitwise AND with the
byte at the form's effective address (the operand byte itself in the Immediate form), P is SetZN of the new A, and
everything else is as before. (R94, R130, R131, R132, R133, R134, R135, R136, R137, R138) -/
def Obligations.AndMeaningsComplete : Prop :=
  ∀ (d : Byte) (w : Word) (s : State),
    exec (.andImm d) s = .next { s with A := (s.A &&& d), P := setZN (s.A &&& d) s.P } ∧
    exec (.andZp d) s = .next { s with A := (s.A &&& s.mem.read (zext16 d)), P := setZN (s.A &&& s.mem.read (zext16 d)) s.P } ∧
    exec (.andZpX d) s = .next { s with A := (s.A &&& s.mem.read (zext16 (d + s.X))), P := setZN (s.A &&& s.mem.read (zext16 (d + s.X))) s.P } ∧
    exec (.andAbs w) s = .next { s with A := (s.A &&& s.mem.read (w)), P := setZN (s.A &&& s.mem.read (w)) s.P } ∧
    exec (.andAbsX w) s = .next { s with A := (s.A &&& s.mem.read (w + zext16 s.X)), P := setZN (s.A &&& s.mem.read (w + zext16 s.X)) s.P } ∧
    exec (.andAbsY w) s = .next { s with A := (s.A &&& s.mem.read (w + zext16 s.Y)), P := setZN (s.A &&& s.mem.read (w + zext16 s.Y)) s.P } ∧
    exec (.andIndX d) s = .next { s with A := (s.A &&& s.mem.read (s.mem.readZP (d + s.X))), P := setZN (s.A &&& s.mem.read (s.mem.readZP (d + s.X))) s.P } ∧
    exec (.andIndY d) s = .next { s with A := (s.A &&& s.mem.read (s.mem.readZP d + zext16 s.Y)), P := setZN (s.A &&& s.mem.read (s.mem.readZP d + zext16 s.Y)) s.P }

/-- For every state, exec of TAX answers the next state with X = A and P = SetZN of A; exec of INX the one with X = X +8 1
and P = SetZN of it; exec of BRK the one with loop state Halted; everything else is as before. (R94, R140, R141, R145) -/
def Obligations.RegisterAndSystemMeaningsComplete : Prop :=
  ∀ s : State,
    exec .tax s = .next { s with X := s.A, P := setZN s.A s.P } ∧
    exec .inx s = .next { s with X := s.X + 1#8, P := setZN (s.X + 1#8) s.P } ∧
    exec .brk s = .next { s with loopState := .halted }

/-- When exec of any LDA or AND form answers a next state: X, Y, pc, the loop state and the latch are unchanged, the six
storage bits of P are unchanged, and every address reads as before. (R110, R130, R16, 10_state.md section 3) -/
def Obligations.LoadFrame : Prop :=
  ∀ (i : Instr) (s t : State), (i.mnemonic = .lda ∨ i.mnemonic = .and) → exec i s = .next t →
    t.X = s.X ∧ t.Y = s.Y ∧ t.pc = s.pc ∧ t.loopState = s.loopState ∧ t.latch = s.latch ∧
    storageBits t.P = storageBits s.P ∧ (∀ a, t.mem.read a = s.mem.read a)

/-- When exec of any instruction answers a next state: if the instruction stores, then at the address its meaning computes
the byte is A and every other address reads as before; if it stores nothing, every address reads as before. An STA
form changes no register, no bit of P, not pc, the loop state or the latch, and every STA form stores. (R119, R33,
R199, 42_load_store.md section 2) -/
def Obligations.StoreFrame : Prop :=
  ∀ (i : Instr) (s t : State), exec i s = .next t →
    (∀ a, storeAddress i s = some a → t.mem.read a = s.A ∧ ∀ b, b ≠ a → t.mem.read b = s.mem.read b) ∧
    (storeAddress i s = none → ∀ b, t.mem.read b = s.mem.read b) ∧
    (i.mnemonic = .sta → (∃ a, storeAddress i s = some a) ∧ t.A = s.A ∧ t.X = s.X ∧ t.Y = s.Y ∧ t.P = s.P ∧
      t.pc = s.pc ∧ t.loopState = s.loopState ∧ t.latch = s.latch)

/-- When exec of TAX or INX answers a next state, A, Y, pc, the loop state, the latch, the six storage bits of P and every
byte of memory are unchanged; when exec of BRK answers one, A, X, Y, P, pc, the latch and every byte of memory are
unchanged. (R140, R141, R145, R16) -/
def Obligations.RegisterAndSystemFrame : Prop :=
  (∀ (i : Instr) (s t : State), (i = .tax ∨ i = .inx) → exec i s = .next t →
      t.A = s.A ∧ t.Y = s.Y ∧ t.pc = s.pc ∧ t.loopState = s.loopState ∧ t.latch = s.latch ∧
      storageBits t.P = storageBits s.P ∧ (∀ a, t.mem.read a = s.mem.read a)) ∧
    (∀ s t : State, exec .brk s = .next t →
      t.A = s.A ∧ t.X = s.X ∧ t.Y = s.Y ∧ t.P = s.P ∧ t.pc = s.pc ∧ t.latch = s.latch ∧
      (∀ a, t.mem.read a = s.mem.read a))

/-- For a state in loop state Fetch with its opcode byte at address a = pc: if the table has no descriptor for it, the
pass raises a fault with pc = a +16 1 and loop state Faulted; if the descriptor is BRK's, the pass halts with pc = a
+16 1 and loop state Halted; otherwise it goes on with pc = a +16 length and loop state Fetch. (R98) -/
def Obligations.PcMovesByTheLength : Prop :=
  ∀ s : State, s.loopState = .fetch →
    (Config.opTable.lookup (s.mem.read s.pc) = none →
      ∃ f t, pass s = .raise f t ∧ t.pc = s.pc + 1#16 ∧ t.loopState = .faulted) ∧
    (∀ d, Config.opTable.lookup (s.mem.read s.pc) = some d → d.mnemonic = .brk →
      ∃ t, pass s = .halt t ∧ t.pc = s.pc + 1#16 ∧ t.loopState = .halted) ∧
    (∀ d, Config.opTable.lookup (s.mem.read s.pc) = some d → d.mnemonic ≠ .brk →
      ∃ t, pass s = .next t ∧ t.pc = s.pc + BitVec.ofNat 16 d.length ∧ t.loopState = .fetch)

/-- For a state in loop state Fetch: the pass halts if and only if the byte at pc is 0x00; it raises a fault if and only
if that byte is none of the 26 opcode bytes; it goes on to a next state if and only if it is one of the other 25; it
is never refused. (R57, R58, R147, R197) -/
def Obligations.OnlyBrkOrAnUnsupportedByteStops : Prop :=
  ∀ s : State, s.loopState = .fetch →
    ((∃ t, pass s = .halt t) ↔ s.mem.read s.pc = 0x00#8) ∧
    ((∃ f t, pass s = .raise f t) ↔ s.mem.read s.pc ∉ supportedBytes) ∧
    ((∃ t, pass s = .next t) ↔ s.mem.read s.pc ∈ supportedBytes ∧ s.mem.read s.pc ≠ 0x00#8) ∧
    (∀ r, pass s ≠ .refused r)

/-- For a state in loop state Fetch whose byte b at pc is none of the 26 opcode bytes, the step is the fault
UnsupportedOpcode(b), and the state left behind is the same state with pc one byte further and loop state Faulted;
with the default table exactly 230 byte values have no descriptor. Over any table a descriptor whose mnemonic has no
handler raises the same fault with the same state. (R58, R93) -/
def Obligations.UnsupportedByteFaults : Prop :=
  (∀ s : State, s.loopState = .fetch → s.mem.read s.pc ∉ supportedBytes →
      step s = .fault (.unsupportedOpcode (s.mem.read s.pc)) ∧
      pass s = .raise (.unsupportedOpcode (s.mem.read s.pc))
        { s with pc := s.pc + 1#16, loopState := .faulted, latch := none }) ∧
    (∀ b : Byte, Config.opTable.lookup b = none ↔ b ∉ supportedBytes) ∧
    ((List.range 256).filter (fun n => (Config.opTable.lookup (BitVec.ofNat 8 n)).isNone)).length = 230 ∧
    (∀ (T : OpTable) (s : State) (d : Descriptor), s.loopState = .fetch → T.lookup (s.mem.read s.pc) = some d →
      d.mnemonic.wired = false → passTable T s = .raise (.unsupportedOpcode (s.mem.read s.pc))
        { s with pc := s.pc + 1#16, loopState := .faulted, latch := none })

/-- In loop states Halted and Faulted (and in the inner states Dispatch and Execute) step is refused with the loop state
named. That this is a refusal under the name stepNotEnabled is the model's choice (log 9). (R96, R97, R100) -/
def Obligations.NoStepOutsideFetch : Prop :=
  ∀ s : State, s.loopState ≠ .fetch → step s = .refused (.stepNotEnabled s.loopState)

/-- For every result byte r and every P: bit 1 of SetZN is 1 exactly when r is 0x00, bit 7 is bit 7 of r, and bits 0, 2,
3, 4, 5 and 6 are P's. (R17) -/
def Obligations.SetZNWritesExactlyTwoBits : Prop :=
  ∀ r p : Byte,
    ((setZN r p).getLsbD 1 = true ↔ r = 0x00#8) ∧ (setZN r p).getLsbD 7 = r.getLsbD 7 ∧
    (∀ i, i ∈ [0, 2, 3, 4, 5, 6] → (setZN r p).getLsbD i = p.getLsbD i)

/-- After any step that executes LDA or AND, Z is 1 exactly when the new A is zero and N is bit 7 of the new A; after TAX
or INX the same of the new X; after STA or BRK P is unchanged. (R14, R15) -/
def Obligations.FlagsFollowTheResult : Prop :=
  ∀ (s t : State) (d : Descriptor), Config.opTable.lookup (s.mem.read s.pc) = some d → step s = .next t →
    (d.mnemonic = .lda ∨ d.mnemonic = .and → (flagZ t.P = true ↔ t.A = 0x00#8) ∧ flagN t.P = t.A.getLsbD 7) ∧
    (d.mnemonic = .tax ∨ d.mnemonic = .inx → (flagZ t.P = true ↔ t.X = 0x00#8) ∧ flagN t.P = t.X.getLsbD 7) ∧
    (d.mnemonic = .sta ∨ d.mnemonic = .brk → t.P = s.P)

/-- Whatever a step executes: Y and the six storage bits of P are unchanged; A is unchanged unless the instruction is LDA
or AND; X is unchanged unless it is TAX or INX; the memory is unchanged unless it is STA. (R10, R11, R12, R16, R199) -/
def Obligations.RegisterReachability : Prop :=
  ∀ (s t : State) (d : Descriptor), Config.opTable.lookup (s.mem.read s.pc) = some d → step s = .next t →
    t.Y = s.Y ∧ storageBits t.P = storageBits s.P ∧
    (d.mnemonic ≠ .lda → d.mnemonic ≠ .and → t.A = s.A) ∧
    (d.mnemonic ≠ .tax → d.mnemonic ≠ .inx → t.X = s.X) ∧
    (d.mnemonic ≠ .sta → t.mem = s.mem)

/-- If Y is 0x00 and P is 0x00, 0x02 or 0x80 and a step answers a next state, then Y is 0x00 and P is one of the three
there too: 0x82 is never reached by instructions, and a Y-indexed mode adds zero throughout a program started by
Reset. (R12, R16, R199) -/
def Obligations.StepKeepsSinceReset : Prop :=
  ∀ s t : State, s.SinceReset → step s = .next t → t.SinceReset

/-- For every state, reachable or not, with its memory in canonical form, no instruction in progress, and loop state
Fetch, Halted or Faulted: if a step answers a next state, the same holds there, and it holds of the state a fault
leaves. The canonical form and the empty latch are the model's representation (logs 3 and 6); that the loop state
between instructions is one of these is R20. (R19, R20, R21) -/
def Obligations.StepKeepsInvariant : Prop :=
  ∀ s : State, s.Inv →
    (∀ t, step s = .next t → t.Inv) ∧ (∀ f t, pass s = .raise f t → t.Inv)

/-- The model's state after reset has its memory in canonical form, no instruction in progress and loop state Fetch, Y
zero and P zero; it has what a program started by Reset relies on (Y zero, P one of 0x00, 0x02 and 0x80). After Reset
of any state, too, the loop state is Fetch, Y and P are zero and this holds. Whatever the registers held, Reset of a
state whose memory image lists nothing is the model's state after reset, with pc 0x0000. The value 0x0000 is the
model's: it is the vector of a memory whose unlisted cells read 0x00 (log 3). (R16, R24, R151, R191) -/
def Obligations.InvariantsHoldAtReset : Prop :=
  State.reset.Inv ∧ State.reset.loopState = .fetch ∧ State.reset.Y = 0x00#8 ∧ State.reset.P = 0x00#8 ∧
    State.reset.SinceReset ∧
    (∀ s : State, s.hostReset.loopState = .fetch ∧ s.hostReset.Y = 0x00#8 ∧ s.hostReset.P = 0x00#8 ∧
      s.hostReset.SinceReset) ∧
    (∀ s : State, s.mem = [] → s.hostReset = State.reset) ∧ State.reset.pc = 0x0000#16

/-- A context created with a canonical memory image has the invariant, and over every opcode table every host operation on
a context that has it, LoadAndRun and Run followed for any number of instructions included, leaves a context that has
it, and so does following a Run in progress further (the operation goOn, the model's own: log 24). The canonical form
and the empty latch are the model's representation (logs 3 and 6); that the loop state between instructions is one of
three is R20. (R20, R150, R151, R154, R161) -/
def Obligations.HostOperationsKeepInvariant : Prop :=
  (∀ mem0 : Memory, mem0.wf = true → (Context.create mem0).state.Inv) ∧
    (∀ (T : OpTable) (fuel : Nat) (c : Context) (op : HostOp), c.state.Inv →
      (c.call T fuel op).2.state.Inv ∧ (c.goOn T fuel).2.state.Inv)

/-- For every address a and b (naturals of any size), byte v and state: ReadByte(b) is the byte of memory at b modulo
65536; after WriteByte(a, v), ReadByte(b) is v if a and b agree modulo 65536 and is as before otherwise; no register
and not the loop state changes. On a context with that state on which no Run is in progress, whatever registers hold a
value: the host operation ReadByte(b) replies that byte and leaves the whole context as it was, and WriteByte(a, v)
replies ok and leaves that state, with which registers hold a value, and that no Run is in progress, unchanged. (R152,
R153) -/
def Obligations.HostByteAccess : Prop :=
  ∀ (s : State) (a b : Nat) (v : Byte),
    s.readByte b = s.mem.read (BitVec.ofNat 16 (b % 65536)) ∧
    (s.writeByte a v).readByte b = (if a % 65536 = b % 65536 then v else s.readByte b) ∧
    (s.writeByte a v).A = s.A ∧ (s.writeByte a v).X = s.X ∧ (s.writeByte a v).Y = s.Y ∧ (s.writeByte a v).P = s.P ∧
    (s.writeByte a v).pc = s.pc ∧ (s.writeByte a v).loopState = s.loopState ∧ (s.writeByte a v).latch = s.latch ∧
    (∀ (T : OpTable) (n : Nat) (h : Valued),
      Context.call T n ⟨s, h, false⟩ (.readByte b) = (.byte (s.readByte b), ⟨s, h, false⟩) ∧
      Context.call T n ⟨s, h, false⟩ (.writeByte a v) = (.ok, ⟨s.writeByte a v, h, false⟩))

/-- For every address a, word w and state: ReadWord(a) as a number is the byte at a plus 256 times the byte at a + 1, both
addresses modulo 65536; after WriteWord(a, w), ReadByte(a) is the low byte of w, ReadByte(a + 1) the high byte,
ReadWord(a) is w, and every other address reads as before; WriteWord is the two WriteByte calls, low byte first, and
A, X, Y, P, pc, the loop state and the latch are unchanged. On a context with that state on which no Run is in
progress, whatever registers hold a value: the host operation ReadWord(a) replies that word and leaves the whole
context as it was, and WriteWord(a, w) replies ok and leaves that state, with which registers hold a value, and that
no Run is in progress, unchanged. (R156, R157) -/
def Obligations.HostWordAccess : Prop :=
  ∀ (s : State) (a : Nat) (w : Word),
    (s.readWordAt a).toNat = (s.readByte a).toNat + 256 * (s.readByte (a + 1)).toNat ∧
    ((s.writeWordAt a w).readByte a).toNat = w.toNat % 256 ∧
    ((s.writeWordAt a w).readByte (a + 1)).toNat = w.toNat / 256 ∧
    (s.writeWordAt a w).readWordAt a = w ∧
    (∀ b, b % 65536 ≠ a % 65536 → b % 65536 ≠ (a + 1) % 65536 → (s.writeWordAt a w).readByte b = s.readByte b) ∧
    s.writeWordAt a w = (s.writeByte a (lo w)).writeByte (a + 1) (hi w) ∧
    (s.writeWordAt a w).A = s.A ∧ (s.writeWordAt a w).X = s.X ∧ (s.writeWordAt a w).Y = s.Y ∧
    (s.writeWordAt a w).P = s.P ∧ (s.writeWordAt a w).pc = s.pc ∧ (s.writeWordAt a w).loopState = s.loopState ∧
    (s.writeWordAt a w).latch = s.latch ∧
    (∀ (T : OpTable) (n : Nat) (h : Valued),
      Context.call T n ⟨s, h, false⟩ (.readWord a) = (.word (s.readWordAt a), ⟨s, h, false⟩) ∧
      Context.call T n ⟨s, h, false⟩ (.writeWord a w) = (.ok, ⟨s.writeWordAt a w, h, false⟩))

/-- Immediate resolves to pc; ZeroPage to the operand byte; ZeroPageX and ZeroPageY to the operand byte plus X or Y modulo
256, never leaving page 0. (R71, R72, R73, R74) -/
def Obligations.ZeroPageAddressesWrapInPageZero : Prop :=
  ∀ s : State,
    resolve .immediate s = .ok s.pc ∧
    (∃ a, resolve .zeroPage s = .ok a ∧ a.toNat = (s.mem.read s.pc).toNat) ∧
    (∃ a, resolve .zeroPageX s = .ok a ∧ a.toNat = ((s.mem.read s.pc).toNat + s.X.toNat) % 256) ∧
    (∃ a, resolve .zeroPageY s = .ok a ∧ a.toNat = ((s.mem.read s.pc).toNat + s.Y.toNat) % 256)

/-- Absolute resolves to the byte at pc plus 256 times the byte at pc +16 1; AbsoluteX and AbsoluteY add X or Y to that,
modulo 65536. (R75, R76, R77) -/
def Obligations.AbsoluteAddressesWrapAtSixteenBits : Prop :=
  ∀ s : State,
    (∃ a, resolve .absolute s = .ok a ∧
      a.toNat = (s.mem.read s.pc).toNat + 256 * (s.mem.read (s.pc + 1#16)).toNat) ∧
    (∃ a, resolve .absoluteX s = .ok a ∧
      a.toNat = ((s.mem.read s.pc).toNat + 256 * (s.mem.read (s.pc + 1#16)).toNat + s.X.toNat) % 65536) ∧
    (∃ a, resolve .absoluteY s = .ok a ∧
      a.toNat = ((s.mem.read s.pc).toNat + 256 * (s.mem.read (s.pc + 1#16)).toNat + s.Y.toNat) % 65536)

/-- With d the operand byte: IndirectX resolves to the little-endian word at the page-0 addresses p = (d + X) mod 256 and
(p + 1) mod 256; IndirectY to the word at d and (d + 1) mod 256, plus Y modulo 65536; mode None raises
InvalidAddressingUse. (R78, R79, R80) -/
def Obligations.IndirectPointersStayInPageZero : Prop :=
  ∀ (s : State) (d x y : Nat), d = (s.mem.read s.pc).toNat → x = s.X.toNat → y = s.Y.toNat →
    (∃ a, resolve .indirectX s = .ok a ∧
      a.toNat = (s.readByte ((d + x) % 256)).toNat + 256 * (s.readByte ((d + x + 1) % 256)).toNat) ∧
    (∃ a, resolve .indirectY s = .ok a ∧
      a.toNat = ((s.readByte d).toNat + 256 * (s.readByte ((d + 1) % 256)).toNat + y) % 65536) ∧
    resolve .none s = .error .invalidAddressingUse

/-- For every list of instructions, with every operand at every value, decoding the concatenation of their encodings from
the first boundary, adding each descriptor's length, gives exactly that list. (R51, R54, R56, R60) -/
def Obligations.DecodingAnEncodedSequenceGivesItBack : Prop :=
  ∀ is : List Instr, decodeAll (encodeAll is) = .ok is

/-- If a byte sequence decodes to a list of instructions, encoding that list gives back exactly those bytes: no bit is
dropped or read twice. (R54, R59, R60) -/
def Obligations.DecodedBytesAreTheEncoding : Prop :=
  ∀ (bytes : List Byte) (is : List Instr), decodeAll bytes = .ok is → encodeAll is = bytes

/-- For every well-formed table T (R55), every form (a mnemonic with a mode and operand bytes, those that no row of R56
has included) and any bytes after it: decoding the form's encoding under T gives the form and the bytes after it; a
form T has a row for has an encoding, of the length R52 gives its mode; bytes that decode under T are a byte with a
descriptor, then the operand bytes of a form that T has a row for, then the rest; walking the encodings of a list of
forms gives the list. With the default table the encoding of an instruction's form is the one written out opcode by
opcode, every instruction is well formed against it, and the decoder of the hardware never meets a form without an
instruction. (R4, R52, R54, R55, R56, R60) -/
def Obligations.EveryWellFormedTableDecodesItsEncodings : Prop :=
  (∀ (T : OpTable) (f : Form) (bytes rest : List Byte), T.wf = true → encodeWith T f = some bytes →
      decodeWith T (bytes ++ rest) = .ok (f, rest)) ∧
    (∀ (T : OpTable) (f : Form), T.wf = true → f.wfIn T = true →
      ∃ bytes, encodeWith T f = some bytes ∧ bytes.length = f.mode.length) ∧
    (∀ (T : OpTable) (f : Form) (bytes rest : List Byte), T.wf = true → decodeWith T bytes = .ok (f, rest) →
      f.wfIn T = true ∧ ∃ b d, T.lookup b = some d ∧ bytes = b :: (f.operands ++ rest)) ∧
    (∀ (T : OpTable) (fs : List Form) (bs : List (List Byte)), T.wf = true → fs.map (encodeWith T) = bs.map some →
      decodeAllWith T bs.flatten = .ok fs) ∧
    (∀ i : Instr, encodeWith Config.opTable i.form = some (encode i) ∧ i.wfIn Config.opTable = true ∧
      i.form.wfIn Config.opTable = true) ∧
    (∀ (bytes : List Byte) (f : Form), decode bytes ≠ .error (.unpaired f))

/-- A9 80 is LDA #$80, AD 34 12 is LDA $1234, 81 FF is STA ($FF,X), 21 30 is AND ($30,X), AA is TAX, E8 is INX, 00 is BRK,
and EA, 89 and A2 are no instructions. The values of the bytes other than 00 and 21 are the default table's (log 1).
(R56, R57, R58, R61) -/
def Obligations.SpecWordsDecode : Prop :=
  decode [0xA9#8, 0x80#8] = .ok (.ldaImm 0x80#8, []) ∧
    decode [0xAD#8, 0x34#8, 0x12#8] = .ok (.ldaAbs 0x1234#16, []) ∧
    decode [0x81#8, 0xFF#8] = .ok (.staIndX 0xFF#8, []) ∧
    decode [0x21#8, 0x30#8] = .ok (.andIndX 0x30#8, []) ∧
    decode [0xAA#8] = .ok (.tax, []) ∧ decode [0xE8#8] = .ok (.inx, []) ∧ decode [0x00#8] = .ok (.brk, []) ∧
    decode [0xEA#8] = .error (.unsupported 0xEA#8) ∧ decode [0x89#8, 0x00#8] = .error (.unsupported 0x89#8) ∧
    decode [0xA2#8, 0x05#8] = .error (.unsupported 0xA2#8)

/-- In loop state Fetch, when the three bytes at pc decode to a well-formed instruction i: with u the state after Fetch
and Dispatch (pc one past the opcode byte, loop state Execute, the latch holding pc_after_fetch, the byte and i's
descriptor), step is what exec of i at u answers, followed by Advance (pc moved by the length less one when it still
is pc_after_fetch, loop state Fetch, latch empty), or by nothing but emptying the latch when the loop state is Halted;
a fault or refusal of exec is the step's. (R92, R93, R94, R95, R96, R100) -/
def Obligations.StepRunsTheDecodedInstruction : Prop :=
  ∀ (s : State) (i : Instr) (rest : List Byte), s.loopState = .fetch →
    decode (s.mem.readBytes s.pc 3) = .ok (i, rest) → i.wfIn Config.opTable = true →
    ∃ (d : Descriptor) (u : State), Config.opTable.lookup (s.mem.read s.pc) = some d ∧ d.mnemonic = i.mnemonic ∧
      d.mode = i.mode ∧ d.length = (encode i).length ∧
      u = { s with pc := s.pc + 1#16, loopState := .execute,
                   latch := some { pcAfterFetch := s.pc + 1#16, opcode := s.mem.read s.pc, descriptor := some d } } ∧
      step s =
        match exec i u with
        | .next t =>
          if t.loopState = .halted then .next { t with latch := none }
          else .next (advance d.length t)
        | .fault f => .fault f
        | .refused r => .refused r

/-- For every state with a latch and every length from 1 to 3: Advance sets pc to pc +16 (length - 1) if pc equals
pc_after_fetch and leaves it otherwise, sets the loop state to Fetch, empties the latch, and changes no register, no
flag and no memory. No meaning writes pc, so the condition always holds. (R95) -/
def Obligations.AdvanceUnlessRedirected : Prop :=
  ∀ (s : State) (l : Latch) (n : Nat), s.latch = some l → 1 ≤ n → n ≤ 3 →
    (s.pc = l.pcAfterFetch → (advance n s).pc.toNat = (s.pc.toNat + (n - 1)) % 65536) ∧
    (s.pc ≠ l.pcAfterFetch → (advance n s).pc = s.pc) ∧
    (advance n s).loopState = .fetch ∧ (advance n s).latch = none ∧
    (advance n s).A = s.A ∧ (advance n s).X = s.X ∧ (advance n s).Y = s.Y ∧ (advance n s).P = s.P ∧
    (advance n s).mem = s.mem ∧
    (∀ (i : Instr) (u t : State), exec i u = .next t → t.pc = u.pc)

/-- For every state, the pass of the model (decode to an instruction, run its meaning, advance) is the pass of Step as
R100 writes it (look the byte up, invoke the handler of its mnemonic with its mode, the handler reading its operands
from memory through the resolver) with OPTABLE at its default: the same outcome and the same state, faults included.
(R90, R91, R94, R95, R100) -/
def Obligations.StepIsTheTableMachineAtTheDefaultTable : Prop :=
  ∀ s : State, pass s = passTable Config.opTable s

/-- For every table T and every state in loop state Fetch: the pass raises InvalidAddressingUse if and only if the byte at
pc has a descriptor that pairs LDA, AND or STA with mode None; the state left is then the same state with pc one byte
further and loop state Faulted; with a well-formed table it is never raised. (R171) -/
def Obligations.InvalidAddressingUseExactlyForNone : Prop :=
  (∀ (T : OpTable) (s : State), s.loopState = .fetch →
      ((∃ t, passTable T s = .raise .invalidAddressingUse t) ↔ resolvesNone T s) ∧
      (resolvesNone T s → passTable T s =
        .raise .invalidAddressingUse { s with pc := s.pc + 1#16, loopState := .faulted, latch := none })) ∧
    (∀ (T : OpTable) (s t : State), T.wf = true → passTable T s ≠ .raise .invalidAddressingUse t)

/-- Over any table, in loop state Fetch with the byte at pc having descriptor d: if d's mnemonic is TAX or INX the pass is
the same whatever the mode, with pc moved by d.length; if it is BRK the pass halts whatever the mode and length; and
every pass that goes on leaves pc moved by d.length, whether or not that is the mode's length. R50 gives a descriptor
the length 1, 2 or 3: that pc moves by the same formula for any other length is the model's choice (log 20). (R55,
R91, R94, R95, R96, R100) -/
def Obligations.IllFormedTablesBehaveAsDefined : Prop :=
  ∀ (T : OpTable) (s : State) (d : Descriptor), s.loopState = .fetch → T.lookup (s.mem.read s.pc) = some d →
    (d.mnemonic = .tax → passTable T s = .next
      { s with X := s.A, P := setZN s.A s.P, pc := s.pc + BitVec.ofNat 16 d.length, latch := none }) ∧
    (d.mnemonic = .inx → passTable T s = .next
      { s with X := s.X + 1#8, P := setZN (s.X + 1#8) s.P, pc := s.pc + BitVec.ofNat 16 d.length, latch := none }) ∧
    (d.mnemonic = .brk → passTable T s = .halt { s with pc := s.pc + 1#16, loopState := .halted, latch := none }) ∧
    (∀ t, passTable T s = .next t → t.pc = s.pc + BitVec.ofNat 16 d.length)

/-- For a state in loop state Fetch: the memory after the pass, whatever its outcome, is the memory before with the listed
writes applied; the first access is the read of the byte at pc; a byte with no descriptor makes only that; with
descriptor d the number of accesses is 1 for mode None, 2 for Immediate, 3 for the ZeroPage family, 4 for the Absolute
family and 5 for the Indirect family, and exactly one of them is a write, the last, if d's mnemonic is STA, and none
otherwise. (R46, R40) -/
def Obligations.MemoryAccessesOfAPass : Prop :=
  ∀ s : State, s.loopState = .fetch →
    (∀ t, (pass s = .next t ∨ pass s = .halt t ∨ ∃ f, pass s = .raise f t) →
      t.mem = applyWrites (accessesTable Config.opTable s) s.mem) ∧
    (accessesTable Config.opTable s).head? = some (.read s.pc) ∧
    (Config.opTable.lookup (s.mem.read s.pc) = none → accessesTable Config.opTable s = [.read s.pc]) ∧
    (∀ d, Config.opTable.lookup (s.mem.read s.pc) = some d →
      (accessesTable Config.opTable s).length =
        (match d.mode with
          | .none => 1
          | .immediate => 2
          | .zeroPage | .zeroPageX | .zeroPageY => 3
          | .absolute | .absoluteX | .absoluteY => 4
          | .indirectX | .indirectY => 5) ∧
      (d.mnemonic = .sta → ∃ a as, accessesTable Config.opTable s = List.map Access.read as ++ [.write a s.A]) ∧
      (d.mnemonic ≠ .sta → ∃ as, accessesTable Config.opTable s = List.map Access.read as))

/-- If a step executes STA and answers t, then at the address it wrote the memory holds A, and if pc now is that address
the next Fetch latches A as the opcode byte; the length by which this step moved pc is that of the descriptor already
looked up. (R44, R33) -/
def Obligations.StoredByteIsSeenByTheNextFetch : Prop :=
  ∀ (s t : State) (d : Descriptor), Config.opTable.lookup (s.mem.read s.pc) = some d → d.mnemonic = .sta →
    step s = .next t →
    ∃ a, .write a s.A ∈ accessesTable Config.opTable s ∧ t.mem.read a = s.A ∧
      t.pc = s.pc + BitVec.ofNat 16 d.length ∧
      (t.pc = a → ∃ l, (fetch t).latch = some l ∧ l.opcode = s.A)

/-- For a state in loop state Fetch and any other memory that agrees with its memory on the addresses the pass lists as
read: the pass from the state with that memory makes the same accesses and has the same outcome (next, halt or the
same fault) with the same registers, flags, pc, loop state and latch. (R32, R42, R46, R82) -/
def Obligations.PassDependsOnlyOnWhatItReads : Prop :=
  ∀ (s : State) (m : Memory), s.loopState = .fetch →
    (∀ a, a ∈ readAddresses (accessesTable Config.opTable s) → m.read a = s.mem.read a) →
    accessesTable Config.opTable { s with mem := m } = accessesTable Config.opTable s ∧
    (match pass s, pass { s with mem := m } with
      | .next t, .next t' => { t' with mem := t.mem } = t
      | .halt t, .halt t' => { t' with mem := t.mem } = t
      | .raise f t, .raise f' t' => f' = f ∧ { t' with mem := t.mem } = t
      | _, _ => False)

/-- For the loop of the hardware, and for the loop over any opcode table: from a state in loop state Fetch the first phase
reads the byte at pc, moves pc one byte and leads to loop state Dispatch; the next phase either ends the pass in its
fault or leads to loop state Execute with everything but the latch and the loop state unchanged; and the third phase
ends exactly as the pass does. Taking an instruction as one atomic step loses nothing. (R4, R92, R93, R94, R99) -/
def Obligations.PhasesMakeOnePass : Prop :=
  ∀ (ph p : State → Pass) (s : State),
    ((ph = phase ∧ p = pass) ∨ ∃ T, ph = phaseTable T ∧ p = passTable T) → s.loopState = .fetch →
    ∃ u l, ph s = .next u ∧ u.loopState = .dispatch ∧ u.pc = s.pc + 1#16 ∧ u.latch = some l ∧
      l.opcode = s.mem.read s.pc ∧ l.pcAfterFetch = s.pc + 1#16 ∧ u.mem = s.mem ∧
      ((∃ f t, ph u = .raise f t ∧ p s = .raise f t) ∨
       (∃ v, ph u = .next v ∧ v.loopState = .execute ∧
          v = { u with loopState := v.loopState, latch := v.latch } ∧ ph v = p s))

/-- For every opcode table, state and bytes of length n: if n > 0x8000 Load fails with OutOfBoundsLoad (the host call
leaves the context as it was, and LoadAndRun ends there); no pass raises that fault; otherwise it succeeds, pc and the
reset vector hold 0x8000, byte i is at 0x8000 + i unless that is 0xFFFC or 0xFFFD, every address outside
0x8000..0x8000+n-1 and the vector reads as before, A, X, Y and P are unchanged and the loop state is Fetch. (R150,
R172, R195) -/
def Obligations.LoadCopiesTheProgram : Prop :=
  ∀ (s : State) (bytes : List Byte),
    (bytes.length > 0x8000 → s.load bytes = .error .outOfBoundsLoad ∧
      (∀ (T : OpTable) (fuel : Nat) (v : Valued),
        Context.call T fuel ⟨s, v, false⟩ (.load bytes) = (.fault .outOfBoundsLoad, ⟨s, v, false⟩)) ∧
      ∀ T fuel, s.loadAndRun T fuel bytes = (.fault .outOfBoundsLoad, s)) ∧
    (∀ t, pass s ≠ .raise .outOfBoundsLoad t) ∧ (∀ T t, passTable T s ≠ .raise .outOfBoundsLoad t) ∧
    (bytes.length ≤ 0x8000 → ∃ t, s.load bytes = .ok t ∧ t.pc = 0x8000#16 ∧ t.loopState = .fetch ∧
      t.A = s.A ∧ t.X = s.X ∧ t.Y = s.Y ∧ t.P = s.P ∧
      t.mem.read 0xFFFC#16 = 0x00#8 ∧ t.mem.read 0xFFFD#16 = 0x80#8 ∧
      (∀ i v, bytes[i]? = some v → i ≠ 0x7FFC → i ≠ 0x7FFD → t.mem.read (0x8000#16 + BitVec.ofNat 16 i) = v) ∧
      (∀ a : Word, a ≠ 0xFFFC#16 → a ≠ 0xFFFD#16 → (a.toNat < 0x8000 ∨ 0x8000 + bytes.length ≤ a.toNat) →
        t.mem.read a = s.mem.read a) ∧
      (∀ (T : OpTable) (fuel : Nat) (v : Valued),
        Context.call T fuel ⟨s, v, false⟩ (.load bytes) = (.ok, ⟨t, v.give .pc, false⟩)))

/-- From every state, Halted and Faulted included, Reset gives A = X = Y = P = 0x00, pc = the byte at 0xFFFC plus 256
times the byte at 0xFFFD, the same memory and loop state Fetch. (R24, R151) -/
def Obligations.ResetValues : Prop :=
  ∀ s : State, s.hostReset.A = 0x00#8 ∧ s.hostReset.X = 0x00#8 ∧ s.hostReset.Y = 0x00#8 ∧ s.hostReset.P = 0x00#8 ∧
    s.hostReset.pc.toNat = (s.mem.read 0xFFFC#16).toNat + 256 * (s.mem.read 0xFFFD#16).toNat ∧
    s.hostReset.mem = s.mem ∧ s.hostReset.loopState = .fetch

/-- For every opcode table and state: there is a number of instructions within which Run's loop has returned Halted in
state t exactly when a chain of passes from it ends in a halt in t; and the same for each fault with the state it
leaves. (R97, R154, 92_eei_decisions.md D23) -/
def Obligations.RunIsTheClosureOfStep : Prop :=
  ∀ (T : OpTable) (s t : State),
    ((∃ n, runFrom T n s = (.halted, t)) ↔ HaltsIn T s t) ∧
    (∀ f, (∃ n, runFrom T n s = (.fault f, t)) ↔ FaultsIn T s f t)

/-- For every opcode table, if within n instructions the loop of Run has ended (its result is not running), then for every
larger bound the result and the state are the same; so two bounds that both see an end see the same end. (R100, R154) -/
def Obligations.RunEndsOnceForAll : Prop :=
  ∀ (T : OpTable) (n k : Nat) (s : State), (runFrom T n s).1 ≠ .running → runFrom T (n + k) s = runFrom T n s

/-- If Run over an opcode table T from s ends in a halt in t, then the passes from s lead to a state u whose byte at pc
has a descriptor of BRK, and t is u with pc one byte further and loop state Halted: A, X, Y, P and memory are as the
instruction before the BRK left them; the byte before t's pc is that byte still. With the default table that byte is
0x00. (R57, R145, R162) -/
def Obligations.HaltedRunEndsAfterABrk : Prop :=
  ∀ (T : OpTable) (s t : State), HaltsIn T s t →
    ∃ u d, Steps T s u ∧ T.lookup (u.mem.read u.pc) = some d ∧ d.mnemonic = .brk ∧
      t = { u with pc := u.pc + 1#16, loopState := .halted, latch := none } ∧
      t.mem.read (t.pc - 1#16) = u.mem.read u.pc ∧ (T = Config.opTable → u.mem.read u.pc = 0x00#8)

/-- For every opcode table, state, bytes and bound on how far the run is followed: if the program does not fit, the result
is OutOfBoundsLoad and the state is unchanged; otherwise LoadAndRun is the loop of Run from the loaded memory with A,
X, Y and P zero, pc 0x8000 and loop state Fetch. (R155) -/
def Obligations.LoadAndRunStartsFresh : Prop :=
  ∀ (T : OpTable) (s : State) (bytes : List Byte) (fuel : Nat),
    (bytes.length > 0x8000 → s.loadAndRun T fuel bytes = (.fault .outOfBoundsLoad, s)) ∧
    (bytes.length ≤ 0x8000 → ∃ t, s.load bytes = .ok t ∧ s.loadAndRun T fuel bytes = runFrom T fuel
      { A := 0x00#8, X := 0x00#8, Y := 0x00#8, P := 0x00#8, pc := 0x8000#16, mem := t.mem, loopState := .fetch,
        latch := none })

/-- For every opcode table, Run for n instructions is the loop from the same registers, flags, pc and memory with loop
state Fetch, whatever the loop state was. After a halt or a fault it goes on at the pc left there, which is one past
the byte that ended the run: after a halt the byte before it has a descriptor of BRK (with the default table it is
0x00), after UnsupportedOpcode(b) it is b, with no descriptor or one that has no handler, and after
InvalidAddressingUse its descriptor pairs LDA, AND or STA with mode None. That a second Run continues is the spec's
own decision (D10). (R154, R170, R177, R178) -/
def Obligations.RunStartsFromTheStateAsItStands : Prop :=
  ∀ (T : OpTable) (n : Nat) (s : State),
    s.run T n = runFrom T n { s with loopState := .fetch, latch := none } ∧
    (∀ t f, (runFrom T n s = (.halted, t) ∨ runFrom T n s = (.fault f, t)) →
      t.loopState ≠ .fetch ∧ ∀ k, t.run T k = runFrom T k { t with loopState := .fetch }) ∧
    (∀ t, runFrom T n s = (.halted, t) →
      (∃ d, T.lookup (t.mem.read (t.pc - 1#16)) = some d ∧ d.mnemonic = .brk) ∧
      (T = Config.opTable → t.mem.read (t.pc - 1#16) = 0x00#8)) ∧
    (∀ t b, runFrom T n s = (.fault (.unsupportedOpcode b), t) →
      t.mem.read (t.pc - 1#16) = b ∧ (∀ d, T.lookup b = some d → d.mnemonic.wired = false)) ∧
    (∀ t, runFrom T n s = (.fault .invalidAddressingUse, t) →
      ∃ d, T.lookup (t.mem.read (t.pc - 1#16)) = some d ∧ d.mode = .none ∧ d.mnemonic.resolves = true)

/-- For every context on which no Run is in progress and register value v (a byte for A, X, Y, P, a word for pc): after
WriteReg(v), ReadReg of that register returns v, every other register, the memory, the loop state and the latch are as
before, and so is which of the other registers hold a value (writing P does not run SetZN). ReadReg of a register with
a value returns it, of one without is refused, and changes nothing. (R158) -/
def Obligations.HostRegisterAccess : Prop :=
  ∀ (T : OpTable) (n : Nat) (c : Context) (v : RegVal), c.runInProgress = false →
    ((c.call T n (.writeReg v)).2.call T n (.readReg v.reg)).1 = .reg v ∧
    (∀ r, r ≠ v.reg → (c.call T n (.writeReg v)).2.state.readReg r = c.state.readReg r ∧
      (c.call T n (.writeReg v)).2.valued.has r = c.valued.has r) ∧
    (c.call T n (.writeReg v)).2.state.mem = c.state.mem ∧
    (c.call T n (.writeReg v)).2.state.loopState = c.state.loopState ∧
    (c.call T n (.writeReg v)).2.state.latch = c.state.latch ∧
    (∀ r, c.call T n (.readReg r) =
      if c.valued.has r then (.reg (c.state.readReg r), c) else (.refused (.valueless r), c))

/-- In a context just created with any memory image, ReadReg of each register is refused and Run is refused because pc has
no value, and neither changes the context; after Reset on any context on which no Run is in progress, which replies
ok, every register holds the value Reset gave it and ReadReg returns it (0x00 for A, X, Y and P, the word at 0xFFFC
for pc), the memory is as before, so that ReadByte of every address replies what it replied before, the loop state is
Fetch and no Run is in progress. What a Run does at an instruction that reads a register without a value is
RunStopsBeforeReadingAValuelessRegister. (R25, R151, R152, R154, R158) -/
def Obligations.ValuelessRegistersAreRefused : Prop :=
  (∀ (T : OpTable) (mem0 : Memory) (r : Reg) (fuel : Nat),
      (Context.create mem0).call T fuel (.readReg r) = (.refused (.valueless r), Context.create mem0) ∧
      (Context.create mem0).call T fuel .run = (.ran (.refused (.valueless .pc)), Context.create mem0)) ∧
    (∀ (T : OpTable) (fuel : Nat) (c c' : Context), c.runInProgress = false → c' = (c.call T fuel .reset).2 →
      (c.call T fuel .reset).1 = .ok ∧ c'.state = c.state.hostReset ∧ c'.valued = Valued.everything ∧
      c'.runInProgress = false ∧ c'.state.mem = c.state.mem ∧ c'.state.loopState = .fetch ∧
      (∀ a, (c'.call T fuel (.readByte a)).1 = (c.call T fuel (.readByte a)).1) ∧
      (c'.call T fuel (.readReg .A)).1 = .reg (.A 0x00#8) ∧ (c'.call T fuel (.readReg .X)).1 = .reg (.X 0x00#8) ∧
      (c'.call T fuel (.readReg .Y)).1 = .reg (.Y 0x00#8) ∧ (c'.call T fuel (.readReg .P)).1 = .reg (.P 0x00#8) ∧
      (c'.call T fuel (.readReg .pc)).1 = .reg (.pc (c.state.readWordAt 0xFFFC)))

/-- For every opcode table and context on which no Run is in progress. If every register holds a value (as after Reset),
the host operation Run followed for n instructions replies what the loop on its state returns and leaves the same
state. LoadAndRun, whichever registers hold a value, replies OutOfBoundsLoad and leaves the context as it was where
the program does not fit, and else replies what LoadAndRun on its state returns and leaves the same state. After both
every register holds a value, and the Run is still in progress exactly when it was not followed to its end; that a
context records this is the model's choice (log 24). (R25, R154, R155) -/
def Obligations.ContextRunIsRunWhenAllHaveValues : Prop :=
  ∀ (T : OpTable) (c : Context) (n : Nat), c.runInProgress = false →
    (c.valued = Valued.everything → c.call T n .run =
      (.ran (c.state.run T n).1,
        ⟨(c.state.run T n).2, Valued.everything, decide ((c.state.run T n).1 = .running)⟩)) ∧
    (∀ bytes, bytes.length > 0x8000 → c.call T n (.loadAndRun bytes) = (.fault .outOfBoundsLoad, c)) ∧
    (∀ bytes, bytes.length ≤ 0x8000 → c.call T n (.loadAndRun bytes) =
      (.ran (c.state.loadAndRun T n bytes).1,
        ⟨(c.state.loadAndRun T n bytes).2, Valued.everything,
          decide ((c.state.loadAndRun T n bytes).1 = .running)⟩))

/-- In an environment of several contexts with one opcode table, a host operation on the i-th changes no other context,
and on that context it is the operation itself. (R160) -/
def Obligations.ContextsAreIndependent : Prop :=
  ∀ (T : OpTable) (n : Nat) (e : Environment) (i : Nat) (op : HostOp),
    (∀ j, j ≠ i → (e.call T n i op).2[j]? = e[j]?) ∧
    (∀ c, e[i]? = some c →
      (e.call T n i op).1 = some (c.call T n op).1 ∧ (e.call T n i op).2[i]? = some (c.call T n op).2)

/-- For every opcode table. (1) The registers an instruction reads besides pc are A for TAX and for AND and STA with a
mode, X for INX and for LDA, AND and STA with an X-indexed mode, Y for those with a Y-indexed mode, and never P or pc.
(2) The host operation Run is refused while pc has no value, and changes nothing; else it is the loop
(Context.runFrom) from the state as Run begins it, and following a Run in progress further is the loop from where it
stands. (3) At every instruction of the loop, the first or a later one (pc holds a value, loop state Fetch): a byte
with no descriptor faults with UnsupportedOpcode; where the descriptor's instruction reads a register without a value,
the loop ends refused with the name of such a register, before the instruction; where each has a value, the loop goes
on from the state the pass goes on to, or ends in the pass's halt or fault; so BRK halts, a mnemonic without a handler
and LDA, AND or STA with mode None fault, whatever registers hold a value. Going on, the registers holding a value are
those from before, A after LDA and AND, and X after TAX and INX; a halt, a fault and a refusal change none of them.
(4) However long the loop is followed: if it ends refused, it has gone by passes to a state whose instruction reads a
register that holds no value, and the refusal names that register; if it has not ended, it has gone by passes to a
state where (3) holds again. That the refusal comes before the instruction, that P counts as read by none, and that an
instruction's own write gives A or X a value (R25 and D8 name Reset, Load and a host write only), is the model's
choice (log 17); that a Run not followed to its end is in progress and followed further is too (log 24). (R25, R110,
R119, R130, R140, R141, R145, R154, R170, R171) -/
def Obligations.RunStopsBeforeReadingAValuelessRegister : Prop :=
  (∀ d : Descriptor,
      (.A ∈ descriptorReads d ↔ d.mnemonic = .tax ∨ ((d.mnemonic = .and ∨ d.mnemonic = .sta) ∧ d.mode ≠ .none)) ∧
      (.X ∈ descriptorReads d ↔ d.mnemonic = .inx ∨ ((d.mnemonic = .lda ∨ d.mnemonic = .and ∨ d.mnemonic = .sta) ∧
        (d.mode = .zeroPageX ∨ d.mode = .absoluteX ∨ d.mode = .indirectX))) ∧
      (.Y ∈ descriptorReads d ↔ (d.mnemonic = .lda ∨ d.mnemonic = .and ∨ d.mnemonic = .sta) ∧
        (d.mode = .zeroPageY ∨ d.mode = .absoluteY ∨ d.mode = .indirectY)) ∧
      .P ∉ descriptorReads d ∧ .pc ∉ descriptorReads d) ∧
    (∀ (T : OpTable) (n : Nat) (c : Context),
      (c.runInProgress = false → c.valued.pc = false → c.call T n .run = (.ran (.refused (.valueless .pc)), c)) ∧
      (c.runInProgress = false → c.valued.pc = true → ∀ r c',
        Context.runFrom T n { c with state := c.state.beginRun } = (r, c') → c.call T n .run = (.ran r, c')) ∧
      (c.runInProgress = true → ∀ r c', Context.runFrom T n c = (r, c') → c.goOn T n = (some r, c'))) ∧
    (∀ (T : OpTable) (n : Nat) (c : Context) (b : Byte) (faulted : State),
      c.valued.pc = true → c.state.loopState = .fetch → b = c.state.mem.read c.state.pc →
      faulted = { c.state with pc := c.state.pc + 1#16, loopState := .faulted, latch := none } →
      (T.lookup b = none →
        Context.runFrom T (n + 1) c = (.fault (.unsupportedOpcode b), ⟨faulted, c.valued, false⟩)) ∧
      (∀ d, T.lookup b = some d →
        ((∃ r, r ∈ descriptorReads d ∧ c.valued.has r = false) →
          ∃ r, r ∈ descriptorReads d ∧ c.valued.has r = false ∧
            Context.runFrom T (n + 1) c = (.refused (.valueless r), { c with runInProgress := false })) ∧
        ((∀ r, r ∈ descriptorReads d → c.valued.has r = true) →
          (∀ t, passTable T c.state = .next t →
            ∃ v, Context.runFrom T (n + 1) c = Context.runFrom T n ⟨t, v, true⟩ ∧
              ∀ r, v.has r = true ↔ c.valued.has r = true ∨ (r = .A ∧ (d.mnemonic = .lda ∨ d.mnemonic = .and)) ∨
                (r = .X ∧ (d.mnemonic = .tax ∨ d.mnemonic = .inx))) ∧
          (∀ t, passTable T c.state = .halt t → Context.runFrom T (n + 1) c = (.halted, ⟨t, c.valued, false⟩)) ∧
          (∀ f t, passTable T c.state = .raise f t →
            Context.runFrom T (n + 1) c = (.fault f, ⟨t, c.valued, false⟩))) ∧
        (d.mnemonic = .brk → Context.runFrom T (n + 1) c =
          (.halted, ⟨{ c.state with pc := c.state.pc + 1#16, loopState := .halted, latch := none }, c.valued, false⟩)) ∧
        (d.mnemonic.wired = false →
          Context.runFrom T (n + 1) c = (.fault (.unsupportedOpcode b), ⟨faulted, c.valued, false⟩)) ∧
        ((d.mnemonic = .lda ∨ d.mnemonic = .and ∨ d.mnemonic = .sta) → d.mode = .none →
          Context.runFrom T (n + 1) c = (.fault .invalidAddressingUse, ⟨faulted, c.valued, false⟩)))) ∧
    (∀ (T : OpTable) (n : Nat) (c c' : Context), c.valued.pc = true → c.state.loopState = .fetch →
      (∀ q, Context.runFrom T n c = (.refused q, c') →
        Steps T c.state c'.state ∧ ∃ d r, T.lookup (c'.state.mem.read c'.state.pc) = some d ∧ r ∈ descriptorReads d ∧
          c'.valued.has r = false ∧ q = .valueless r) ∧
      (Context.runFrom T n c = (.running, c') →
        Steps T c.state c'.state ∧ c'.runInProgress = true ∧ c'.valued.pc = true ∧ c'.state.loopState = .fetch))

/-- For every opcode table, context and host operation: while a Run is in progress the operation (Reset and Load included)
is refused and changes nothing. On a context on which none is in progress, one is in progress after the operation
exactly when it is a Run or LoadAndRun that was followed to no end, and then the loop state is Fetch; and following
such a Run for k instructions more gives the reply and the context that following it for n + k at once gives, so no
host move lands between its instructions. The refusal by name is the model's choice (log 24): the rules say that the
host has no such move. (R42, R45, R154, R159, R190) -/
def Obligations.HostHasNoMoveDuringARun : Prop :=
  ∀ (T : OpTable) (n k : Nat) (c : Context) (op : HostOp),
    (c.runInProgress = true → c.call T n op = (.refused .runInProgress, c)) ∧
    (c.runInProgress = false →
      ((c.call T n op).2.runInProgress = true ↔ (c.call T n op).1 = .ran .running) ∧
      ((c.call T n op).1 = .ran .running →
        (op = .run ∨ ∃ bytes, op = .loadAndRun bytes) ∧ (c.call T n op).2.state.loopState = .fetch ∧
        ∃ r, c.call T (n + k) op = (.ran r, ((c.call T n op).2.goOn T k).2) ∧
          ((c.call T n op).2.goOn T k).1 = some r))
end

