-- ==== Sys2Proof/Laws/Memory.lean ====
section
/-! SUPPORT. The laws of memory: a read after a write, a write leaves every other cell alone, every operation keeps the canonical
form, equal contents are equal lists, and the words built from bytes. -/

namespace Sys2Proof.Machine

/-! ### Bytes and words -/

@[simp] theorem lo_cat (h l : Byte) : lo (cat h l) = l := by
  apply BitVec.eq_of_getLsbD_eq
  intro i hi'
  simp only [lo, cat, BitVec.getLsbD_setWidth, BitVec.getLsbD_append]
  simp [hi']

@[simp] theorem hi_cat (h l : Byte) : hi (cat h l) = h := by
  apply BitVec.eq_of_getLsbD_eq
  intro i hi'
  simp only [hi, cat, BitVec.getLsbD_extractLsb', BitVec.getLsbD_append]
  simp [hi']

@[simp] theorem cat_hi_lo (w : Word) : cat (hi w) (lo w) = w := by
  apply BitVec.eq_of_getLsbD_eq
  intro i hi'
  simp only [hi, lo, cat, BitVec.getLsbD_append, BitVec.getLsbD_extractLsb', BitVec.getLsbD_setWidth]
  by_cases h : i < 8
  · simp [h]
  · have h' : i - 8 < 8 := by omega
    have h'' : 8 + (i - 8) = i := by omega
    simp [h, h', h'']

@[simp] theorem toNat_zext16 (b : Byte) : (zext16 b).toNat = b.toNat := by
  have := b.isLt
  simp [zext16]; omega

/-- `{h, l}` as a number (R34). -/
theorem cat_toNat (h l : Byte) : (cat h l).toNat = l.toNat + 256 * h.toNat := by
  have := l.isLt
  rw [cat, BitVec.toNat_append, ← Nat.shiftLeft_add_eq_or_of_lt (i := 8) (by simpa using l.isLt), Nat.shiftLeft_eq]
  omega

theorem lo_toNat (w : Word) : (lo w).toNat = w.toNat % 256 := by simp [lo]

theorem hi_toNat (w : Word) : (hi w).toNat = w.toNat / 256 := by
  have := w.isLt
  simp [hi, BitVec.extractLsb'_toNat, Nat.shiftRight_eq_div_pow]
  omega

theorem zext16_eq_ofNat (b : Byte) (n : Nat) (h : b.toNat = n) : zext16 b = BitVec.ofNat 16 n := by
  apply BitVec.eq_of_toNat_eq
  have := b.isLt
  subst h
  simp
  omega

theorem zext16_injective {b c : Byte} (h : zext16 b = zext16 c) : b = c := by
  apply BitVec.eq_of_toNat_eq
  rw [← toNat_zext16 b, ← toNat_zext16 c, h]

theorem Word.succ_ne_self (a : Word) : a + 1#16 ≠ a := by
  intro h
  have := congrArg BitVec.toNat h
  simp [BitVec.toNat_add] at this
  have := a.isLt
  omega

/-! ### Reading after writing -/

theorem Memory.get_erase_same (m : Memory) (a : Nat) : (Memory.erase m a).get a = Memory.unlisted := by
  induction m with
  | nil => rfl
  | cons c m ih => obtain ⟨k, v⟩ := c; by_cases h : k = a <;> simp [Memory.erase, Memory.get, h, ih]

theorem Memory.get_erase_other (m : Memory) {a b : Nat} (h : b ≠ a) :
    (Memory.erase m a).get b = m.get b := by
  induction m with
  | nil => rfl
  | cons c m ih =>
    obtain ⟨k, v⟩ := c
    by_cases hk : k = a
    · subst hk; simp [Memory.erase, Memory.get, ih, Ne.symm h]
    · simp [Memory.erase, Memory.get, hk, ih]

/-- No entry of the image is at the key a. -/
def Memory.lacks (m : Memory) (a : Nat) : Prop := ∀ c ∈ m, c.1 ≠ a

theorem Memory.erase_lacks (m : Memory) (a : Nat) : Memory.lacks (Memory.erase m a) a := by
  induction m with
  | nil => simp [Memory.erase, Memory.lacks]
  | cons c m ih =>
    obtain ⟨k, v⟩ := c
    by_cases hk : k = a
    · simpa [Memory.erase, hk] using ih
    · simp only [Memory.erase, hk, if_false]
      intro c hc
      rcases List.mem_cons.mp hc with rfl | hc
      · exact hk
      · exact ih c hc

theorem Memory.get_insert_same (m : Memory) {a : Nat} (v : Byte) (h : Memory.lacks m a) :
    (Memory.insert m a v).get a = v := by
  induction m with
  | nil => simp [Memory.insert, Memory.get]
  | cons c m ih =>
    obtain ⟨k, w⟩ := c
    have hk : k ≠ a := h (k, w) (by simp)
    have ht : Memory.lacks m a := fun c hc => h c (by simp [hc])
    by_cases hlt : a < k
    · simp [Memory.insert, hlt, Memory.get]
    · simp [Memory.insert, hlt, Memory.get, hk, ih ht]

theorem Memory.get_insert_other (m : Memory) {a b : Nat} (v : Byte) (h : b ≠ a) :
    (Memory.insert m a v).get b = m.get b := by
  induction m with
  | nil => simp [Memory.insert, Memory.get, Ne.symm h]
  | cons c m ih =>
    obtain ⟨k, w⟩ := c
    by_cases hlt : a < k
    · simp [Memory.insert, hlt, Memory.get, Ne.symm h]
    · simp [Memory.insert, hlt, Memory.get, ih]

theorem Memory.get_set_same (m : Memory) (a : Nat) (v : Byte) : (Memory.set m a v).get a = v := by
  by_cases h : v = Memory.unlisted
  · simp [Memory.set, h, Memory.get_erase_same]
  · simpa [Memory.set, h] using Memory.get_insert_same _ v (Memory.erase_lacks m a)

theorem Memory.get_set_other (m : Memory) {a b : Nat} (v : Byte) (h : b ≠ a) :
    (Memory.set m a v).get b = m.get b := by
  by_cases hv : v = Memory.unlisted
  · simp [Memory.set, hv, Memory.get_erase_other m h]
  · simp [Memory.set, hv, Memory.get_insert_other _ v h, Memory.get_erase_other m h]

@[simp] theorem Memory.read_write_same (m : Memory) (a : Word) (v : Byte) : (m.write a v).read a = v :=
  Memory.get_set_same m a.toNat v

theorem Memory.read_write_other (m : Memory) {a b : Word} (v : Byte) (h : b ≠ a) :
    (m.write a v).read b = m.read b :=
  Memory.get_set_other m v (fun e => h (BitVec.eq_of_toNat_eq e))

/-- Everything a byte write does to what a read gives. -/
theorem Memory.read_write (m : Memory) (a b : Word) (v : Byte) :
    (m.write a v).read b = if b = a then v else m.read b := by
  by_cases h : b = a
  · subst h; simp
  · simp [h, Memory.read_write_other m v h]

/-- Everything a word write does to what a read gives. -/
theorem Memory.read_writeWord (m : Memory) (a b : Word) (w : Word) :
    (m.writeWord a w).read b = if b = a + 1#16 then hi w else if b = a then lo w else m.read b := by
  simp [Memory.writeWord, Memory.read_write]

@[simp] theorem Memory.readWord_writeWord_same (m : Memory) (a w : Word) :
    (m.writeWord a w).readWord a = w := by
  simp [Memory.readWord, Memory.read_writeWord]

@[simp] theorem Memory.read_nil (a : Word) : Memory.read [] a = Memory.unlisted := rfl

/-! ### Runs of bytes -/

theorem Word.add_offset_succ (a : Word) (i : Nat) :
    a + BitVec.ofNat 16 (i + 1) = a + 1#16 + BitVec.ofNat 16 i := by
  apply BitVec.eq_of_toNat_eq
  simp only [BitVec.toNat_add, BitVec.toNat_ofNat]
  omega

theorem Word.ne_succ_add_offset (a : Word) {i : Nat} (h : i + 1 < 65536) : a ≠ a + 1#16 + BitVec.ofNat 16 i := by
  intro e
  have he := congrArg BitVec.toNat e
  simp only [BitVec.toNat_add, BitVec.toNat_ofNat] at he
  have := a.isLt
  omega

/-- Writing bytes changes no cell but the ones it covers. -/
theorem Memory.read_writeBytes_outside (bs : List Byte) : ∀ (m : Memory) (a b : Word),
    (∀ i, i < bs.length → b ≠ a + BitVec.ofNat 16 i) → (m.writeBytes a bs).read b = m.read b := by
  induction bs with
  | nil => intro m a b _; rfl
  | cons x bs ih =>
    intro m a b h
    have h0 : b ≠ a := by simpa using h 0 (by simp)
    rw [Memory.writeBytes, ih _ _ _ (fun i hi => by
      rw [← Word.add_offset_succ a i]; exact h (i + 1) (by simpa using hi))]
    exact Memory.read_write_other m x h0

/-- Writing bytes puts the i-th byte at the i-th address, as long as the bytes fit the address space. -/
theorem Memory.read_writeBytes_inside (bs : List Byte) : ∀ (m : Memory) (a : Word) (i : Nat) (v : Byte),
    bs.length ≤ 65536 → bs[i]? = some v → (m.writeBytes a bs).read (a + BitVec.ofNat 16 i) = v := by
  induction bs with
  | nil => intro m a i v _ h; simp at h
  | cons x bs ih =>
    intro m a i v hlen h
    simp only [List.length_cons] at hlen
    cases i with
    | zero =>
      have hx : x = v := by simpa using h
      rw [Memory.writeBytes, Memory.read_writeBytes_outside bs _ _ _ (fun i hi => by
        simpa using Word.ne_succ_add_offset a (by omega))]
      simpa using hx
    | succ j =>
      rw [Memory.writeBytes, Word.add_offset_succ a j]
      exact ih _ _ j v (by omega) (by simpa using h)

/-- Reading n bytes gives n bytes. -/
theorem Memory.readBytes_length (m : Memory) (a : Word) (n : Nat) : (m.readBytes a n).length = n := by
  induction n generalizing a with
  | zero => rfl
  | succ n ih => simp [Memory.readBytes, ih]

/-! ### The canonical form -/

theorem Memory.wfFrom_mono {l l' : Nat} (h : l' ≤ l) : ∀ {m : Memory}, Memory.wfFrom l m = true → Memory.wfFrom l' m = true
  | [], _ => rfl
  | (k, v) :: m, hm => by
    simp only [Memory.wfFrom, Bool.and_eq_true, decide_eq_true_eq] at hm ⊢
    exact ⟨⟨⟨by omega, hm.1.1.2⟩, hm.1.2⟩, hm.2⟩

theorem Memory.erase_wfFrom (a : Nat) : ∀ {l : Nat} {m : Memory}, Memory.wfFrom l m = true →
    Memory.wfFrom l (Memory.erase m a) = true
  | _, [], _ => rfl
  | l, (k, v) :: m, hm => by
    simp only [Memory.wfFrom, Bool.and_eq_true, decide_eq_true_eq] at hm
    have ih := Memory.erase_wfFrom a hm.2
    by_cases hk : k = a
    · simpa [Memory.erase, hk] using Memory.wfFrom_mono (by omega) (hk ▸ ih)
    · simp only [Memory.erase, hk, if_false, Memory.wfFrom, Bool.and_eq_true, decide_eq_true_eq]
      exact ⟨hm.1, ih⟩

theorem Memory.insert_wfFrom {a : Nat} {v : Byte} (ha : a < Config.memSize) (hv : v ≠ Memory.unlisted) :
    ∀ {l : Nat} {m : Memory}, l ≤ a → Memory.lacks m a → Memory.wfFrom l m = true →
      Memory.wfFrom l (Memory.insert m a v) = true
  | l, [], hl, _, _ => by simp [Memory.insert, Memory.wfFrom, hl, ha, hv]
  | l, (k, w) :: m, hl, hm', hm => by
    have hk : k ≠ a := hm' (k, w) (by simp)
    simp only [Memory.wfFrom, Bool.and_eq_true, decide_eq_true_eq] at hm
    by_cases hlt : a < k
    · simp only [Memory.insert, hlt, if_true, Memory.wfFrom, Bool.and_eq_true, decide_eq_true_eq]
      exact ⟨⟨⟨hl, ha⟩, by simpa using hv⟩, ⟨⟨by omega, hm.1.1.2⟩, hm.1.2⟩, hm.2⟩
    · simp only [Memory.insert, hlt, if_false, Memory.wfFrom, Bool.and_eq_true, decide_eq_true_eq]
      exact ⟨hm.1, Memory.insert_wfFrom ha hv (by omega) (fun c hc => hm' c (by simp [hc])) hm.2⟩

/-- A write keeps the canonical form. -/
theorem Memory.wf_write {m : Memory} (h : m.wf = true) (a : Word) (v : Byte) : (m.write a v).wf = true := by
  have he := Memory.erase_wfFrom a.toNat h
  by_cases hv : v = Memory.unlisted
  · simpa [Memory.wf, Memory.write, Memory.set, hv] using he
  · simpa [Memory.wf, Memory.write, Memory.set, hv] using
      Memory.insert_wfFrom (by have := a.isLt; simpa [Config.memSize] using this) hv (Nat.zero_le _)
        (Memory.erase_lacks m a.toNat) he

theorem Memory.wf_writeWord {m : Memory} (h : m.wf = true) (a w : Word) : (m.writeWord a w).wf = true :=
  Memory.wf_write (Memory.wf_write h _ _) _ _

theorem Memory.wf_writeBytes (bs : List Byte) : ∀ {m : Memory} (a : Word), m.wf = true → (m.writeBytes a bs).wf = true := by
  induction bs with
  | nil => intro m a h; exact h
  | cons b bs ih => intro m a h; exact ih _ (Memory.wf_write h a b)

theorem Memory.wf_nil : Memory.wf [] = true := rfl

theorem Memory.get_of_lt {l : Nat} : ∀ {m : Memory} {a : Nat}, Memory.wfFrom l m = true → a < l → m.get a = Memory.unlisted
  | [], _, _, _ => rfl
  | (k, v) :: m, a, hm, ha => by
    simp only [Memory.wfFrom, Bool.and_eq_true, decide_eq_true_eq] at hm
    have hk : k ≠ a := by omega
    simpa [Memory.get, hk] using Memory.get_of_lt hm.2 (by omega)

theorem Memory.ext_from : ∀ {l : Nat} {m n : Memory}, Memory.wfFrom l m = true → Memory.wfFrom l n = true →
    (∀ a, a < Config.memSize → m.get a = n.get a) → m = n
  | _, [], [], _, _, _ => rfl
  | l, [], (k, v) :: n, _, hn, h => by
    simp only [Memory.wfFrom, Bool.and_eq_true, decide_eq_true_eq, bne_iff_ne, ne_eq] at hn
    exact absurd (by simpa [Memory.get] using (h k hn.1.1.2).symm) hn.1.2
  | l, (k, v) :: m, [], hm, _, h => by
    simp only [Memory.wfFrom, Bool.and_eq_true, decide_eq_true_eq, bne_iff_ne, ne_eq] at hm
    exact absurd (by simpa [Memory.get] using h k hm.1.1.2) hm.1.2
  | l, (k, v) :: m, (k', v') :: n, hm, hn, h => by
    simp only [Memory.wfFrom, Bool.and_eq_true, decide_eq_true_eq, bne_iff_ne, ne_eq] at hm hn
    have hk : k = k' := by
      rcases Nat.lt_trichotomy k k' with hlt | he | hgt
      · have := h k hm.1.1.2
        rw [Memory.get, if_pos rfl, Memory.get, if_neg (by omega), Memory.get_of_lt hn.2 (by omega)] at this
        exact absurd this hm.1.2
      · exact he
      · have := h k' hn.1.1.2
        rw [Memory.get, if_neg (by omega), Memory.get_of_lt hm.2 (by omega), Memory.get, if_pos rfl] at this
        exact absurd this.symm hn.1.2
    subst hk
    have hv : v = v' := by simpa [Memory.get] using h k hm.1.1.2
    subst hv
    have ht : m = n := Memory.ext_from hm.2 hn.2 (fun a ha => by
      by_cases hak : k = a
      · rw [Memory.get_of_lt hm.2 (by omega), Memory.get_of_lt hn.2 (by omega)]
      · simpa [Memory.get, hak] using h a ha)
    rw [ht]

/-- Two canonical images that read alike everywhere are the same list. -/
theorem Memory.ext {m n : Memory} (hm : m.wf = true) (hn : n.wf = true) (h : ∀ a : Word, m.read a = n.read a) : m = n :=
  Memory.ext_from hm hn (fun a ha => by
    have := h (BitVec.ofNat 16 a)
    simpa [Memory.read, Nat.mod_eq_of_lt (show a < 65536 from ha)] using this)

end Sys2Proof.Machine
end

