-- ==== Sys2Proof/Laws/Decode.lean ====
section
/-! SUPPORT. The decoder's laws: what lookup finds, what assemble gives, and what the default table holds. -/

namespace Sys2Proof

theorem OpTable.lookup_mem {T : OpTable} {b : Byte} {d : Descriptor} (h : T.lookup b = some d) : d ∈ T :=
  List.mem_of_find?_eq_some h

/-- R55 (a): the descriptor of a byte carries that byte. -/
theorem OpTable.lookup_code {T : OpTable} {b : Byte} {d : Descriptor} (h : T.lookup b = some d) : d.code = b := by
  simpa using List.find?_some h

/-- With distinct codes, every descriptor is the one found under its own code. -/
theorem OpTable.lookup_of_mem : ∀ {T : OpTable} {d : Descriptor}, T.codesDistinct = true → d ∈ T → T.lookup d.code = some d
  | [], _, _, h => by simp at h
  | e :: T, d, hc, h => by
    simp only [OpTable.codesDistinct, Bool.and_eq_true, List.all_eq_true, bne_iff_ne, ne_eq] at hc
    rcases List.mem_cons.mp h with rfl | h
    · simp [OpTable.lookup]
    · have hne : ¬ (e.code == d.code) = true := by simpa using fun he => hc.1 d h he.symm
      have ih := OpTable.lookup_of_mem hc.2 h
      simpa [OpTable.lookup, List.find?_cons, hne] using ih

theorem OpTable.wf_descriptor {T : OpTable} {d : Descriptor} (hT : T.wf = true) (h : d ∈ T) : d.wf = true := by
  simp only [OpTable.wf, Bool.and_eq_true, List.all_eq_true] at hT
  exact hT.2 d h

theorem OpTable.wf_distinct {T : OpTable} (hT : T.wf = true) : T.codesDistinct = true := by
  simp only [OpTable.wf, Bool.and_eq_true] at hT
  exact hT.1

theorem opTable_wf : Config.opTable.wf = true := by decide

/-- A row of the default table is an instruction of that opcode, mnemonic and mode, whatever its operand bytes. -/
theorem assemble_opTable {d : Descriptor} (h : d ∈ Config.opTable) {l : List Byte} (hl : l.length = d.length - 1) :
    ∃ i, assemble d.mnemonic d.mode l = some i ∧ i.opcode = d.code ∧ i.operands = l ∧
      i.mnemonic = d.mnemonic ∧ i.mode = d.mode := by
  have two : ∀ l : List Byte, l.length = 2 → ∃ x y, l = [x, y] := fun l hl => List.length_eq_two.mp hl
  simp only [Config.opTable, Config.opRowsNone, Config.opRowsAnd, Config.opRowsSta, Config.opRowsLda,
    List.cons_append, List.nil_append, List.mem_cons, List.not_mem_nil, or_false] at h
  rcases h with rfl | rfl | rfl | rfl | rfl | rfl | rfl | rfl | rfl | rfl | rfl | rfl | rfl | rfl | rfl | rfl | rfl | rfl | rfl | rfl | rfl | rfl | rfl | rfl | rfl | rfl
  all_goals
    first
    | (obtain rfl := List.length_eq_zero_iff.mp hl; exact ⟨_, rfl, rfl, rfl, rfl, rfl⟩)
    | (obtain ⟨x, rfl⟩ := List.length_eq_one_iff.mp hl; exact ⟨_, rfl, rfl, rfl, rfl, rfl⟩)
    | (obtain ⟨x, y, rfl⟩ := two l hl; exact ⟨_, rfl, rfl, by simp [Instr.operands], rfl, rfl⟩)

theorem Instr.lookup_row (i : Instr) :
    (Config.opTable.lookup i.opcode).map (fun d => (d.mnemonic, d.mode, d.length)) =
      some (i.mnemonic, i.mode, 1 + i.operands.length) := by
  cases i <;>
    simp only [Instr.opcode, Instr.mnemonic, Instr.mode, Instr.operands, List.length_cons, List.length_nil] <;>
    decide +kernel

/-- `lookup` at an instruction's opcode finds its row: its mnemonic, its mode, its length. -/
theorem Instr.lookup_opcode (i : Instr) : ∃ d, Config.opTable.lookup i.opcode = some d ∧ d.mnemonic = i.mnemonic ∧
    d.mode = i.mode ∧ d.length = 1 + i.operands.length := by
  have h := i.lookup_row
  rw [Option.map_eq_some_iff] at h
  obtain ⟨d, hd, he⟩ := h
  simp only [Prod.mk.injEq] at he
  exact ⟨d, hd, he⟩

/-- The operand bytes of an instruction give it back. -/
theorem assemble_operands (i : Instr) : assemble i.mnemonic i.mode i.operands = some i := by
  cases i <;> simp [assemble, assembleF1, assembleF2, assembleF3, Instr.mnemonic, Instr.mode, Instr.operands]

/-- Everything a successful decode over a table says: a byte with a descriptor, then the form's operand bytes, then the rest. -/
theorem decodeWith_ok {T : OpTable} {bytes rest : List Byte} {f : Form} (h : decodeWith T bytes = .ok (f, rest)) :
    ∃ b d, T.lookup b = some d ∧ f.mnemonic = d.mnemonic ∧ f.mode = d.mode ∧ f.operands.length = d.length - 1 ∧
      bytes = b :: (f.operands ++ rest) := by
  unfold decodeWith at h
  split at h
  · cases h
  · rename_i b bs
    split at h
    · cases h
    · rename_i d hd
      split at h
      · cases h
      · cases h
        exact ⟨b, d, hd, rfl, rfl, by simp; omega, by simp⟩

/-- A byte with a descriptor and as many bytes as its length asks for decode, whatever follows. -/
theorem decodeWith_cons {T : OpTable} {b : Byte} {d : Descriptor} (hd : T.lookup b = some d) {ops : List Byte}
    (hl : ops.length = d.length - 1) (rest : List Byte) :
    decodeWith T (b :: (ops ++ rest)) = .ok (⟨d.mnemonic, d.mode, ops⟩, rest) := by
  simp [decodeWith, hd, ← hl]

/-- Everything a successful decode says: the bytes are the instruction's encoding, then the rest. -/
theorem decode_ok {bytes rest : List Byte} {i : Instr} (h : decode bytes = .ok (i, rest)) : bytes = encode i ++ rest := by
  unfold decode at h
  cases hw : decodeWith Config.opTable bytes with
  | error e => rw [hw] at h; cases h
  | ok r =>
    obtain ⟨f, rest'⟩ := r
    obtain ⟨b, d, hd, hm, hmo, hl, rfl⟩ := decodeWith_ok hw
    obtain ⟨j, hj, hcode, hops, -, -⟩ := assemble_opTable (OpTable.lookup_mem hd) hl
    rw [← hm, ← hmo] at hj
    rw [hw] at h
    simp only [hj] at h
    cases h
    rw [encode, hcode, OpTable.lookup_code hd, hops, List.cons_append]

end Sys2Proof
end

