-- ==== Sys2Proof/Laws/Flags.lean ====
section
/-! SUPPORT. Everything SetZN does, bit by bit (R14-R17). -/

namespace Sys2Proof.Machine

theorem setZN_getLsbD (r p : Byte) (i : Nat) (hi : i < 8) :
    (setZN r p).getLsbD i =
      if i = 1 then decide (r = 0x00#8) else if i = 7 then r.getLsbD 7 else p.getLsbD i := by
  have h : i = 0 ∨ i = 1 ∨ i = 2 ∨ i = 3 ∨ i = 4 ∨ i = 5 ∨ i = 6 ∨ i = 7 := by omega
  by_cases hr : r = 0x00#8
  · subst hr
    rcases h with rfl | rfl | rfl | rfl | rfl | rfl | rfl | rfl <;> simp [setZN]
  · rcases h with rfl | rfl | rfl | rfl | rfl | rfl | rfl | rfl <;> simp [setZN, hr]

/-- Z is set exactly when the result is zero (R14). -/
@[simp] theorem flagZ_setZN (r p : Byte) : flagZ (setZN r p) = decide (r = 0x00#8) := by
  rw [flagZ, setZN_getLsbD r p 1 (by decide)]; simp

/-- N is bit 7 of the result (R15). -/
@[simp] theorem flagN_setZN (r p : Byte) : flagN (setZN r p) = r.getLsbD 7 := by
  rw [flagN, setZN_getLsbD r p 7 (by decide)]; simp

/-- The six storage bits survive (R16). -/
@[simp] theorem storageBits_setZN (r p : Byte) : storageBits (setZN r p) = storageBits p := by
  apply BitVec.eq_of_getLsbD_eq
  intro i hi
  have h : i = 0 ∨ i = 1 ∨ i = 2 ∨ i = 3 ∨ i = 4 ∨ i = 5 ∨ i = 6 ∨ i = 7 := by omega
  simp only [storageBits, BitVec.getLsbD_and, setZN_getLsbD r p i hi]
  rcases h with rfl | rfl | rfl | rfl | rfl | rfl | rfl | rfl <;> simp

end Sys2Proof.Machine
end

