-- ==== Sys2Proof/Laws/State.lean ====
section
/-! SUPPORT. One lemma per field of State for each operation that updates it, true by rfl. -/

namespace Sys2Proof.Machine

@[simp] theorem State.setA_A (s : State) (v : Byte) : (s.setA v).A = v := rfl
@[simp] theorem State.setA_X (s : State) (v : Byte) : (s.setA v).X = s.X := rfl
@[simp] theorem State.setA_Y (s : State) (v : Byte) : (s.setA v).Y = s.Y := rfl
@[simp] theorem State.setA_P (s : State) (v : Byte) : (s.setA v).P = setZN v s.P := rfl
@[simp] theorem State.setA_pc (s : State) (v : Byte) : (s.setA v).pc = s.pc := rfl
@[simp] theorem State.setA_mem (s : State) (v : Byte) : (s.setA v).mem = s.mem := rfl
@[simp] theorem State.setA_loopState (s : State) (v : Byte) : (s.setA v).loopState = s.loopState := rfl
@[simp] theorem State.setA_latch (s : State) (v : Byte) : (s.setA v).latch = s.latch := rfl

@[simp] theorem State.setX_A (s : State) (v : Byte) : (s.setX v).A = s.A := rfl
@[simp] theorem State.setX_X (s : State) (v : Byte) : (s.setX v).X = v := rfl
@[simp] theorem State.setX_Y (s : State) (v : Byte) : (s.setX v).Y = s.Y := rfl
@[simp] theorem State.setX_P (s : State) (v : Byte) : (s.setX v).P = setZN v s.P := rfl
@[simp] theorem State.setX_pc (s : State) (v : Byte) : (s.setX v).pc = s.pc := rfl
@[simp] theorem State.setX_mem (s : State) (v : Byte) : (s.setX v).mem = s.mem := rfl
@[simp] theorem State.setX_loopState (s : State) (v : Byte) : (s.setX v).loopState = s.loopState := rfl
@[simp] theorem State.setX_latch (s : State) (v : Byte) : (s.setX v).latch = s.latch := rfl

@[simp] theorem State.storeA_A (s : State) (ea : Word) : (s.storeA ea).A = s.A := rfl
@[simp] theorem State.storeA_X (s : State) (ea : Word) : (s.storeA ea).X = s.X := rfl
@[simp] theorem State.storeA_Y (s : State) (ea : Word) : (s.storeA ea).Y = s.Y := rfl
@[simp] theorem State.storeA_P (s : State) (ea : Word) : (s.storeA ea).P = s.P := rfl
@[simp] theorem State.storeA_pc (s : State) (ea : Word) : (s.storeA ea).pc = s.pc := rfl
@[simp] theorem State.storeA_mem (s : State) (ea : Word) : (s.storeA ea).mem = s.mem.write ea s.A := rfl
@[simp] theorem State.storeA_loopState (s : State) (ea : Word) : (s.storeA ea).loopState = s.loopState := rfl
@[simp] theorem State.storeA_latch (s : State) (ea : Word) : (s.storeA ea).latch = s.latch := rfl

@[simp] theorem State.halt_A (s : State) : (s.halt).A = s.A := rfl
@[simp] theorem State.halt_X (s : State) : (s.halt).X = s.X := rfl
@[simp] theorem State.halt_Y (s : State) : (s.halt).Y = s.Y := rfl
@[simp] theorem State.halt_P (s : State) : (s.halt).P = s.P := rfl
@[simp] theorem State.halt_pc (s : State) : (s.halt).pc = s.pc := rfl
@[simp] theorem State.halt_mem (s : State) : (s.halt).mem = s.mem := rfl
@[simp] theorem State.halt_loopState (s : State) : (s.halt).loopState = .halted := rfl
@[simp] theorem State.halt_latch (s : State) : (s.halt).latch = s.latch := rfl

@[simp] theorem State.raise_A (s : State) : (s.raise).A = s.A := rfl
@[simp] theorem State.raise_X (s : State) : (s.raise).X = s.X := rfl
@[simp] theorem State.raise_Y (s : State) : (s.raise).Y = s.Y := rfl
@[simp] theorem State.raise_P (s : State) : (s.raise).P = s.P := rfl
@[simp] theorem State.raise_pc (s : State) : (s.raise).pc = s.pc := rfl
@[simp] theorem State.raise_mem (s : State) : (s.raise).mem = s.mem := rfl
@[simp] theorem State.raise_loopState (s : State) : (s.raise).loopState = .faulted := rfl
@[simp] theorem State.raise_latch (s : State) : (s.raise).latch = none := rfl

@[simp] theorem State.fetch_A (s : State) : (fetch s).A = s.A := rfl
@[simp] theorem State.fetch_X (s : State) : (fetch s).X = s.X := rfl
@[simp] theorem State.fetch_Y (s : State) : (fetch s).Y = s.Y := rfl
@[simp] theorem State.fetch_P (s : State) : (fetch s).P = s.P := rfl
@[simp] theorem State.fetch_pc (s : State) : (fetch s).pc = s.pc + 1#16 := rfl
@[simp] theorem State.fetch_mem (s : State) : (fetch s).mem = s.mem := rfl
@[simp] theorem State.fetch_loopState (s : State) : (fetch s).loopState = .dispatch := rfl
@[simp] theorem State.fetch_latch (s : State) : (fetch s).latch = some { pcAfterFetch := s.pc + 1#16, opcode := s.mem.read s.pc, descriptor := none } := rfl

@[simp] theorem State.advance_A (s : State) (n : Nat) : (advance n s).A = s.A := rfl
@[simp] theorem State.advance_X (s : State) (n : Nat) : (advance n s).X = s.X := rfl
@[simp] theorem State.advance_Y (s : State) (n : Nat) : (advance n s).Y = s.Y := rfl
@[simp] theorem State.advance_P (s : State) (n : Nat) : (advance n s).P = s.P := rfl
@[simp] theorem State.advance_mem (s : State) (n : Nat) : (advance n s).mem = s.mem := rfl
@[simp] theorem State.advance_loopState (s : State) (n : Nat) : (advance n s).loopState = .fetch := rfl
@[simp] theorem State.advance_latch (s : State) (n : Nat) : (advance n s).latch = none := rfl

@[simp] theorem State.atExecute_A (s : State) (d : Descriptor) : (atExecute s d).A = s.A := rfl
@[simp] theorem State.atExecute_X (s : State) (d : Descriptor) : (atExecute s d).X = s.X := rfl
@[simp] theorem State.atExecute_Y (s : State) (d : Descriptor) : (atExecute s d).Y = s.Y := rfl
@[simp] theorem State.atExecute_P (s : State) (d : Descriptor) : (atExecute s d).P = s.P := rfl
@[simp] theorem State.atExecute_pc (s : State) (d : Descriptor) : (atExecute s d).pc = s.pc + 1#16 := rfl
@[simp] theorem State.atExecute_mem (s : State) (d : Descriptor) : (atExecute s d).mem = s.mem := rfl
@[simp] theorem State.atExecute_loopState (s : State) (d : Descriptor) : (atExecute s d).loopState = .execute := rfl
@[simp] theorem State.atExecute_latch (s : State) (d : Descriptor) : (atExecute s d).latch = some { pcAfterFetch := s.pc + 1#16, opcode := s.mem.read s.pc, descriptor := some d } := rfl

@[simp] theorem State.afterFetch_A (s : State) : (afterFetch s).A = s.A := rfl
@[simp] theorem State.afterFetch_X (s : State) : (afterFetch s).X = s.X := rfl
@[simp] theorem State.afterFetch_Y (s : State) : (afterFetch s).Y = s.Y := rfl
@[simp] theorem State.afterFetch_P (s : State) : (afterFetch s).P = s.P := rfl
@[simp] theorem State.afterFetch_pc (s : State) : (afterFetch s).pc = s.pc + 1#16 := rfl
@[simp] theorem State.afterFetch_mem (s : State) : (afterFetch s).mem = s.mem := rfl
@[simp] theorem State.afterFetch_loopState (s : State) : (afterFetch s).loopState = s.loopState := rfl
@[simp] theorem State.afterFetch_latch (s : State) : (afterFetch s).latch = none := rfl

@[simp] theorem State.beginRun_A (s : State) : (s.beginRun).A = s.A := rfl
@[simp] theorem State.beginRun_X (s : State) : (s.beginRun).X = s.X := rfl
@[simp] theorem State.beginRun_Y (s : State) : (s.beginRun).Y = s.Y := rfl
@[simp] theorem State.beginRun_P (s : State) : (s.beginRun).P = s.P := rfl
@[simp] theorem State.beginRun_pc (s : State) : (s.beginRun).pc = s.pc := rfl
@[simp] theorem State.beginRun_mem (s : State) : (s.beginRun).mem = s.mem := rfl
@[simp] theorem State.beginRun_loopState (s : State) : (s.beginRun).loopState = .fetch := rfl
@[simp] theorem State.beginRun_latch (s : State) : (s.beginRun).latch = none := rfl

@[simp] theorem State.hostReset_A (s : State) : (s.hostReset).A = 0x00#8 := rfl
@[simp] theorem State.hostReset_X (s : State) : (s.hostReset).X = 0x00#8 := rfl
@[simp] theorem State.hostReset_Y (s : State) : (s.hostReset).Y = 0x00#8 := rfl
@[simp] theorem State.hostReset_P (s : State) : (s.hostReset).P = 0x00#8 := rfl
@[simp] theorem State.hostReset_pc (s : State) : (s.hostReset).pc = s.mem.readWord Config.resetVector := rfl
@[simp] theorem State.hostReset_mem (s : State) : (s.hostReset).mem = s.mem := rfl
@[simp] theorem State.hostReset_loopState (s : State) : (s.hostReset).loopState = .fetch := rfl
@[simp] theorem State.hostReset_latch (s : State) : (s.hostReset).latch = none := rfl

@[simp] theorem State.writeByte_A (s : State) (a : Nat) (v : Byte) : (s.writeByte a v).A = s.A := rfl
@[simp] theorem State.writeByte_X (s : State) (a : Nat) (v : Byte) : (s.writeByte a v).X = s.X := rfl
@[simp] theorem State.writeByte_Y (s : State) (a : Nat) (v : Byte) : (s.writeByte a v).Y = s.Y := rfl
@[simp] theorem State.writeByte_P (s : State) (a : Nat) (v : Byte) : (s.writeByte a v).P = s.P := rfl
@[simp] theorem State.writeByte_pc (s : State) (a : Nat) (v : Byte) : (s.writeByte a v).pc = s.pc := rfl
@[simp] theorem State.writeByte_mem (s : State) (a : Nat) (v : Byte) : (s.writeByte a v).mem = s.mem.write (BitVec.ofNat 16 a) v := rfl
@[simp] theorem State.writeByte_loopState (s : State) (a : Nat) (v : Byte) : (s.writeByte a v).loopState = s.loopState := rfl
@[simp] theorem State.writeByte_latch (s : State) (a : Nat) (v : Byte) : (s.writeByte a v).latch = s.latch := rfl

@[simp] theorem State.writeWordAt_A (s : State) (a : Nat) (w : Word) : (s.writeWordAt a w).A = s.A := rfl
@[simp] theorem State.writeWordAt_X (s : State) (a : Nat) (w : Word) : (s.writeWordAt a w).X = s.X := rfl
@[simp] theorem State.writeWordAt_Y (s : State) (a : Nat) (w : Word) : (s.writeWordAt a w).Y = s.Y := rfl
@[simp] theorem State.writeWordAt_P (s : State) (a : Nat) (w : Word) : (s.writeWordAt a w).P = s.P := rfl
@[simp] theorem State.writeWordAt_pc (s : State) (a : Nat) (w : Word) : (s.writeWordAt a w).pc = s.pc := rfl
@[simp] theorem State.writeWordAt_mem (s : State) (a : Nat) (w : Word) : (s.writeWordAt a w).mem = s.mem.writeWord (BitVec.ofNat 16 a) w := rfl
@[simp] theorem State.writeWordAt_loopState (s : State) (a : Nat) (w : Word) : (s.writeWordAt a w).loopState = s.loopState := rfl
@[simp] theorem State.writeWordAt_latch (s : State) (a : Nat) (w : Word) : (s.writeWordAt a w).latch = s.latch := rfl

theorem State.advance_pc (s : State) (n : Nat) (l : Latch) (h : s.latch = some l) :
    (advance n s).pc = if s.pc = l.pcAfterFetch then s.pc + (BitVec.ofNat 16 n - 1#16) else s.pc := by
  simp [advance, h]

/-- Reset leaves what the spec lists, from the image with nothing written in it (R24). -/
theorem State.reset_eq_hostReset (s : State) (h : s.mem = []) : s.hostReset = State.reset := by
  simp [State.hostReset, State.reset, h]

end Sys2Proof.Machine
end

