-- ==== Sys2Proof/Laws/Loop.lean ====
section
/-! SUPPORT. Said once, for every later proof: what an instruction can do, what a pass of the loop can do, and that a handler
invoked by mnemonic and mode is the instruction's meaning. -/

namespace Sys2Proof.Machine

/-! ### One instruction -/

/-- The registers, flags and memory an instruction writes; it always completes (R94, R199). -/
theorem exec_next (i : Instr) (s : State) : ∃ t, exec i s = .next t ∧
    ((∃ v, i.mnemonic.resolves = true ∧ t = s.setA v) ∨ (∃ a, i.mnemonic = .sta ∧ t = s.storeA a) ∨
      (∃ v, (i = .tax ∨ i = .inx) ∧ t = s.setX v) ∨ (i = .brk ∧ t = s.halt)) := by
  cases i <;> refine ⟨_, rfl, ?_⟩
  case brk => exact .inr (.inr (.inr ⟨rfl, rfl⟩))
  case tax => exact .inr (.inr (.inl ⟨_, .inl rfl, rfl⟩))
  case inx => exact .inr (.inr (.inl ⟨_, .inr rfl, rfl⟩))
  all_goals first
    | exact .inr (.inl ⟨_, rfl, rfl⟩)
    | exact .inl ⟨_, rfl, rfl⟩

/-- What every instruction leaves alone (R12, R16, R94). -/
theorem exec_frame {i : Instr} {s t : State} (h : exec i s = .next t) :
    t.Y = s.Y ∧ t.pc = s.pc ∧ t.latch = s.latch ∧ storageBits t.P = storageBits s.P ∧
      (t.mem = s.mem ∨ ∃ a, t.mem = s.mem.write a s.A) ∧
      (i ≠ .brk → t.loopState = s.loopState) ∧ (i = .brk → t = s.halt) := by
  obtain ⟨u, hu, hc⟩ := exec_next i s
  obtain rfl : t = u := by rw [h] at hu; exact (Host.Outcome.next.inj hu)
  rcases hc with ⟨v, hr, rfl⟩ | ⟨a, hm, rfl⟩ | ⟨v, hi, rfl⟩ | ⟨hi, rfl⟩
  · exact ⟨rfl, rfl, rfl, storageBits_setZN _ _, .inl rfl, fun _ => rfl, fun e => by simp [e, Instr.mnemonic, Mnemonic.resolves] at hr⟩
  · exact ⟨rfl, rfl, rfl, rfl, .inr ⟨a, rfl⟩, fun _ => rfl, fun e => by simp [e, Instr.mnemonic] at hm⟩
  · exact ⟨rfl, rfl, rfl, storageBits_setZN _ _, .inl rfl, fun _ => rfl, fun e => by subst e; simp at hi⟩
  · exact ⟨rfl, rfl, rfl, rfl, .inl rfl, fun e => absurd hi e, fun _ => rfl⟩

/-- Reading two bytes as a word. -/
theorem readWord_of_bytes {m : Memory} {a : Word} {l h : Byte} (hb : m.readBytes a 2 = [l, h]) : m.readWord a = cat h l := by
  simp only [Memory.readBytes, List.cons.injEq, and_true] at hb
  simp [Memory.readWord, hb.1, hb.2]

/-- With the instruction's operand bytes at pc, the handler of its mnemonic with its mode does what the instruction does. -/
theorem handle_eq_exec (i : Instr) (s : State) (h : s.mem.readBytes s.pc i.operands.length = i.operands) :
    ∃ t, exec i s = .next t ∧ handle i.mnemonic i.mode s = if i.mnemonic = .brk then .halt t else .done t := by
  cases i <;> refine ⟨_, rfl, ?_⟩
  case brk => rfl
  case tax => rfl
  case inx => rfl
  all_goals
    simp only [Instr.operands, List.length_cons, List.length_nil] at h
    first
    | (have hw := readWord_of_bytes h
       simp [handle, withEa, resolve, Instr.mnemonic, Instr.mode, hw])
    | (simp only [Memory.readBytes, List.cons.injEq, and_true] at h
       simp [handle, withEa, resolve, Instr.mnemonic, Instr.mode, eaImmediate, h])

/-! ### One pass -/

/-- The instruction at an opcode byte that has a descriptor. -/
theorem instr_of_lookup {s : State} {d : Descriptor} (hd : Config.opTable.lookup (s.mem.read s.pc) = some d) :
    ∃ i, assemble d.mnemonic d.mode (s.mem.readBytes (s.pc + 1#16) (d.length - 1)) = some i ∧
      i.opcode = s.mem.read s.pc ∧ i.operands = s.mem.readBytes (s.pc + 1#16) (d.length - 1) ∧
      i.mnemonic = d.mnemonic ∧ i.mode = d.mode := by
  obtain ⟨i, h1, h2, h3, h4, h5⟩ :=
    assemble_opTable (OpTable.lookup_mem hd) (Memory.readBytes_length s.mem (s.pc + 1#16) (d.length - 1))
  exact ⟨i, h1, h2.trans (OpTable.lookup_code hd), h3, h4, h5⟩

theorem wired_of_lookup {b : Byte} {d : Descriptor} (hd : Config.opTable.lookup b = some d) : d.mnemonic.wired = true := by
  have h := OpTable.wf_descriptor opTable_wf (OpTable.lookup_mem hd)
  simp only [Descriptor.wf, Bool.and_eq_true] at h
  exact h.1.1

/-- The state a fault in Dispatch leaves (R177). -/
def faultedAt (s : State) : State := { s with pc := s.pc + 1#16, loopState := .faulted, latch := none }

/-- A byte with no descriptor (R93, R170). -/
theorem pass_unsupported {s : State} (hf : s.loopState = .fetch) (hd : Config.opTable.lookup (s.mem.read s.pc) = none) :
    pass s = .raise (.unsupportedOpcode (s.mem.read s.pc)) (faultedAt s) := by
  simp [pass, hf, dispatch, hd, State.raise, fetch, faultedAt]

/-- A byte with a descriptor: the handler of its instruction, then what follows it. -/
theorem pass_runs {s : State} (hf : s.loopState = .fetch) {d : Descriptor} {i : Instr}
    (hd : Config.opTable.lookup (s.mem.read s.pc) = some d)
    (hi : assemble d.mnemonic d.mode (s.mem.readBytes (s.pc + 1#16) (d.length - 1)) = some i) :
    pass s = afterHandler d.length (atExecute s d) (exec i (atExecute s d)) := by
  have hdisp : dispatch Config.opTable (fetch s) = .next (atExecute s d) := by
    simp [dispatch, hd, wired_of_lookup hd, fetch, atExecute]
  have hex : execute (atExecute s d) = afterHandler d.length (atExecute s d) (exec i (atExecute s d)) := by
    simp [execute, hi]
  simp [pass, hf, hdisp, hex]

/-- Advance after a handler that left pc alone: past the operand bytes (R95). -/
theorem advance_of_pc {s t : State} {d : Descriptor} (hpc : t.pc = s.pc + 1#16) (hl : t.latch = (atExecute s d).latch) (n : Nat) :
    advance n t = { t with pc := s.pc + 1#16 + (BitVec.ofNat 16 n - 1#16), loopState := .fetch, latch := none } := by
  simp only [advance, hl, hpc]
  simp [atExecute]

/-- Everything one pass from Fetch can do: raise UnsupportedOpcode, halt at BRK, or run an instruction and go past it. -/
theorem pass_cases {s : State} (hf : s.loopState = .fetch) :
    (Config.opTable.lookup (s.mem.read s.pc) = none ∧
      pass s = .raise (.unsupportedOpcode (s.mem.read s.pc)) (faultedAt s)) ∨
    (∃ d i t, Config.opTable.lookup (s.mem.read s.pc) = some d ∧
      assemble d.mnemonic d.mode (s.mem.readBytes (s.pc + 1#16) (d.length - 1)) = some i ∧
      i.opcode = s.mem.read s.pc ∧ i.operands = s.mem.readBytes (s.pc + 1#16) (d.length - 1) ∧
      i.mnemonic = d.mnemonic ∧ i.mode = d.mode ∧
      exec i (atExecute s d) = .next t ∧ t.pc = s.pc + 1#16 ∧ t.latch = (atExecute s d).latch ∧
      ((i = .brk ∧ t = (atExecute s d).halt ∧ pass s = .halt { t with latch := none }) ∨
       (i ≠ .brk ∧ t.loopState = .execute ∧
        pass s = .next { t with pc := s.pc + 1#16 + (BitVec.ofNat 16 d.length - 1#16), loopState := .fetch, latch := none }))) := by
  cases hd : Config.opTable.lookup (s.mem.read s.pc) with
  | none => exact .inl ⟨rfl, pass_unsupported hf hd⟩
  | some d =>
    obtain ⟨i, hi, h2, h3, h4, h5⟩ := instr_of_lookup hd
    obtain ⟨t, ht, -⟩ := exec_next i (atExecute s d)
    obtain ⟨-, hpc, hl, -, -, hns, hbrk⟩ := exec_frame ht
    refine .inr ⟨d, i, t, rfl, hi, h2, h3, h4, h5, ht, hpc, hl, ?_⟩
    have hp := pass_runs hf hd hi
    rw [ht] at hp
    by_cases hib : i = .brk
    · refine .inl ⟨hib, hbrk hib, ?_⟩
      rw [hp, hbrk hib]
      simp [afterHandler]
    · have hns' : t.loopState = .execute := hns hib
      refine .inr ⟨hib, hns', ?_⟩
      rw [hp]
      simp only [afterHandler, hns', advance_of_pc hpc hl]
      simp

/-- Fetch's one byte and Advance's length less one make the length (R98). -/
theorem Word.fetch_then_advance (a n : Word) : a + 1#16 + (n - 1#16) = a + n := by
  rw [BitVec.add_assoc, BitVec.add_comm 1#16, BitVec.sub_add_cancel]

/-- A step at an opcode that has a descriptor, for an instruction other than BRK: its meaning, then past its bytes. -/
theorem step_next {s t : State} (hf : s.loopState = .fetch) {d : Descriptor} {i : Instr}
    (hd : Config.opTable.lookup (s.mem.read s.pc) = some d)
    (hi : assemble d.mnemonic d.mode (s.mem.readBytes (s.pc + 1#16) (d.length - 1)) = some i)
    (hb : i ≠ .brk) (ht : exec i (atExecute s d) = .next t) :
    step s = .next { t with pc := s.pc + BitVec.ofNat 16 d.length, loopState := .fetch, latch := none } := by
  obtain ⟨-, hpc, hl, -, -, hns, -⟩ := exec_frame ht
  have hns' : t.loopState = .execute := hns hb
  rw [step, pass_runs hf hd hi, ht]
  simp only [afterHandler, hns', advance_of_pc hpc hl, Word.fetch_then_advance]
  rfl

/-- The descriptor and the assembly of an instruction whose bytes stand at pc. -/
theorem at_instr {s : State} {i : Instr} (ho : s.mem.read s.pc = i.opcode)
    (hops : s.mem.readBytes (s.pc + 1#16) i.operands.length = i.operands) :
    ∃ d, Config.opTable.lookup (s.mem.read s.pc) = some d ∧ d.mnemonic = i.mnemonic ∧ d.mode = i.mode ∧
      d.length = 1 + i.operands.length ∧
      assemble d.mnemonic d.mode (s.mem.readBytes (s.pc + 1#16) (d.length - 1)) = some i := by
  obtain ⟨d, hd, hm, ho', hl⟩ := i.lookup_opcode
  refine ⟨d, by rw [ho, hd], hm, ho', hl, ?_⟩
  rw [hl, Nat.add_sub_cancel_left, hops, hm, ho', assemble_operands]

/-- A step at an instruction whose bytes stand at pc, other than BRK: its meaning, then past its bytes. -/
theorem step_instr {s : State} (hf : s.loopState = .fetch) {i : Instr} (ho : s.mem.read s.pc = i.opcode)
    (hops : s.mem.readBytes (s.pc + 1#16) i.operands.length = i.operands) (hb : i ≠ .brk) :
    ∃ d, ∀ t, exec i (atExecute s d) = .next t →
      step s = .next { t with pc := s.pc + BitVec.ofNat 16 (1 + i.operands.length), loopState := .fetch, latch := none } := by
  obtain ⟨d, hd, -, -, hl, hi⟩ := at_instr ho hops
  exact ⟨d, fun t ht => hl ▸ step_next hf hd hi hb ht⟩

/-- No pass starts in another loop state (R100). -/
theorem pass_not_fetch {s : State} (h : s.loopState ≠ .fetch) : pass s = .refused (.stepNotEnabled s.loopState) := by
  cases hl : s.loopState <;> simp_all [pass]

end Sys2Proof.Machine
end

