-- ==== Sys2Proof/Laws/PerInstr.lean ====
section
/-! SUPPORT. Statements for all instructions, made per instruction: each constructor is a row of the default opcode table, with the
length of its encoding. -/

namespace Sys2Proof.Laws.TableRow

/-- The instruction is well formed against the default table, and its encoding has the length R52 gives its mode. -/
def Statement (i : Instr) : Prop :=
  i.wfIn Config.opTable = true ∧ (encode i).length = i.mode.length

theorem brk : Statement .brk := ⟨rfl, rfl⟩
theorem andIndX (d : Byte) : Statement (.andIndX d) := ⟨rfl, rfl⟩
theorem andZp (d : Byte) : Statement (.andZp d) := ⟨rfl, rfl⟩
theorem andImm (d : Byte) : Statement (.andImm d) := ⟨rfl, rfl⟩
theorem andAbs (w : Word) : Statement (.andAbs w) := ⟨rfl, rfl⟩
theorem andIndY (d : Byte) : Statement (.andIndY d) := ⟨rfl, rfl⟩
theorem andZpX (d : Byte) : Statement (.andZpX d) := ⟨rfl, rfl⟩
theorem andAbsY (w : Word) : Statement (.andAbsY w) := ⟨rfl, rfl⟩
theorem andAbsX (w : Word) : Statement (.andAbsX w) := ⟨rfl, rfl⟩
theorem staIndX (d : Byte) : Statement (.staIndX d) := ⟨rfl, rfl⟩
theorem staZp (d : Byte) : Statement (.staZp d) := ⟨rfl, rfl⟩
theorem staAbs (w : Word) : Statement (.staAbs w) := ⟨rfl, rfl⟩
theorem staIndY (d : Byte) : Statement (.staIndY d) := ⟨rfl, rfl⟩
theorem staZpX (d : Byte) : Statement (.staZpX d) := ⟨rfl, rfl⟩
theorem staAbsY (w : Word) : Statement (.staAbsY w) := ⟨rfl, rfl⟩
theorem staAbsX (w : Word) : Statement (.staAbsX w) := ⟨rfl, rfl⟩
theorem ldaIndX (d : Byte) : Statement (.ldaIndX d) := ⟨rfl, rfl⟩
theorem ldaZp (d : Byte) : Statement (.ldaZp d) := ⟨rfl, rfl⟩
theorem ldaImm (d : Byte) : Statement (.ldaImm d) := ⟨rfl, rfl⟩
theorem tax : Statement .tax := ⟨rfl, rfl⟩
theorem ldaAbs (w : Word) : Statement (.ldaAbs w) := ⟨rfl, rfl⟩
theorem ldaIndY (d : Byte) : Statement (.ldaIndY d) := ⟨rfl, rfl⟩
theorem ldaZpX (d : Byte) : Statement (.ldaZpX d) := ⟨rfl, rfl⟩
theorem ldaAbsY (w : Word) : Statement (.ldaAbsY w) := ⟨rfl, rfl⟩
theorem ldaAbsX (w : Word) : Statement (.ldaAbsX w) := ⟨rfl, rfl⟩
theorem inx : Statement .inx := ⟨rfl, rfl⟩

end Sys2Proof.Laws.TableRow
end

