-- ==== Sys2Proof/Laws/Table.lean ====
section
/-! SUPPORT. What the handlers of the table machine can do, and what a resolver reads. -/

namespace Sys2Proof.Machine

/-- A handler that resolves fails for mode None and for no other (R80, R82). -/
theorem withEa_cases (m : Mode) (s : State) (f : Word → State) :
    (m = .none ∧ withEa m s f = .raise .invalidAddressingUse) ∨
      (m ≠ .none ∧ ∃ ea, resolve m s = .ok ea ∧ withEa m s f = .done (f ea)) := by
  cases m <;> simp [withEa, resolve]

/-- Everything a handler can do: raise InvalidAddressingUse, complete without moving pc, with A stored in one cell at most, halt, or
not exist (R91, R94). -/
theorem handle_cases (mn : Mnemonic) (m : Mode) (s : State) :
    (mn.resolves = true ∧ m = .none ∧ handle mn m s = .raise .invalidAddressingUse) ∨
      (∃ t, handle mn m s = .done t ∧ t.pc = s.pc ∧ t.Y = s.Y ∧ t.latch = s.latch ∧ t.loopState = s.loopState ∧
        (t.mem = s.mem ∨ ∃ a, t.mem = s.mem.write a s.A) ∧ (mn.resolves = true → m ≠ .none)) ∨
      (mn = .brk ∧ handle mn m s = .halt s.halt) ∨ (mn.wired = false ∧ handle mn m s = .noHandler) := by
  cases mn
  case tax => exact .inr (.inl ⟨_, rfl, rfl, rfl, rfl, rfl, .inl rfl, fun h => by cases h⟩)
  case inx => exact .inr (.inl ⟨_, rfl, rfl, rfl, rfl, rfl, .inl rfl, fun h => by cases h⟩)
  case brk => exact .inr (.inr (.inl ⟨rfl, rfl⟩))
  case unwired n => exact .inr (.inr (.inr ⟨rfl, rfl⟩))
  case and =>
    rcases withEa_cases m s (fun ea => s.setA (s.A &&& s.mem.read ea)) with ⟨h1, h2⟩ | ⟨h1, ea, -, h3⟩
    · exact .inl ⟨rfl, h1, h2⟩
    · exact .inr (.inl ⟨_, h3, rfl, rfl, rfl, rfl, .inl rfl, fun _ => h1⟩)
  case lda =>
    rcases withEa_cases m s (fun ea => s.setA (s.mem.read ea)) with ⟨h1, h2⟩ | ⟨h1, ea, -, h3⟩
    · exact .inl ⟨rfl, h1, h2⟩
    · exact .inr (.inl ⟨_, h3, rfl, rfl, rfl, rfl, .inl rfl, fun _ => h1⟩)
  case sta =>
    rcases withEa_cases m s (fun ea => s.storeA ea) with ⟨h1, h2⟩ | ⟨h1, ea, -, h3⟩
    · exact .inl ⟨rfl, h1, h2⟩
    · exact .inr (.inl ⟨_, h3, rfl, rfl, rfl, rfl, .inr ⟨ea, rfl⟩, fun _ => h1⟩)

/-- Everything one pass over a table can do from Fetch: fault with UnsupportedOpcode or InvalidAddressingUse, halt at a
descriptor of BRK, or complete a handler and go past the descriptor's length (R98, R100). -/
theorem passTable_cases (T : OpTable) {s : State} (hf : s.loopState = .fetch) :
    (passTable T s = .raise (.unsupportedOpcode (s.mem.read s.pc)) (faultedAt s) ∧
      ∀ d, T.lookup (s.mem.read s.pc) = some d → d.mnemonic.wired = false) ∨
    (passTable T s = .raise .invalidAddressingUse (faultedAt s) ∧ resolvesNone T s) ∨
    (∃ d, T.lookup (s.mem.read s.pc) = some d ∧ d.mnemonic = .brk ∧
      passTable T s = .halt { s with pc := s.pc + 1#16, loopState := .halted, latch := none }) ∨
    (∃ d t, T.lookup (s.mem.read s.pc) = some d ∧ handle d.mnemonic d.mode (afterFetch s) = .done t ∧
      passTable T s = .next { t with pc := s.pc + BitVec.ofNat 16 d.length, loopState := .fetch }) := by
  cases hd : T.lookup (s.mem.read s.pc) with
  | none =>
    refine .inl ⟨?_, fun d h => by cases h⟩
    simp only [passTable, hf, hd]
    rfl
  | some d =>
    rcases handle_cases d.mnemonic d.mode (afterFetch s) with ⟨h1, h2, h3⟩ | ⟨t, h3, hpc, -⟩ | ⟨h1, h3⟩ | ⟨h1, h3⟩
    · refine .inr (.inl ⟨?_, d, hd, h2, h1⟩)
      simp only [passTable, hf, hd, h3]
      rfl
    · refine .inr (.inr (.inr ⟨d, t, rfl, h3, ?_⟩))
      simp only [passTable, hf, hd, h3, hpc, if_true, State.afterFetch_pc, Word.fetch_then_advance]
    · refine .inr (.inr (.inl ⟨d, rfl, h1, ?_⟩))
      simp only [passTable, hf, hd, h3]
      rfl
    · refine .inl ⟨?_, fun e he => by rw [← Option.some.inj he]; exact h1⟩
      simp only [passTable, hf, hd, h3]
      rfl

/-- No pass over a table starts in another loop state (R100). -/
theorem passTable_not_fetch (T : OpTable) {s : State} (h : s.loopState ≠ .fetch) :
    passTable T s = .refused (.stepNotEnabled s.loopState) := by
  cases hl : s.loopState <;> simp_all [passTable]

/-- A resolver depends on memory only through the addresses it reads (R82). -/
theorem resolve_congr (m : Mode) (s : State) (n : Memory) (h : ∀ a ∈ resolverReads m s, n.read a = s.mem.read a) :
    resolve m { s with mem := n } = resolve m s ∧ resolverReads m { s with mem := n } = resolverReads m s := by
  cases m <;> simp [resolverReads] at h <;>
    simp [resolve, resolverReads, eaImmediate, eaZeroPage, eaZeroPageX, eaZeroPageY, eaAbsolute, eaAbsoluteX,
      eaAbsoluteY, eaIndirectX, eaIndirectY, Memory.readWord, Memory.readZP, h]

theorem readAddresses_map_append (as : List Word) (bs : List Access) :
    readAddresses (as.map Access.read ++ bs) = as ++ readAddresses bs := by
  induction as with
  | nil => rfl
  | cons a as ih => simp [readAddresses] at ih ⊢

end Sys2Proof.Machine
end

