-- ==== Sys2Proof/Laws/Run.lean ====
section
/-! SUPPORT. Run as a chain of passes over an opcode table: what a run that ended has gone through, what a pass that ended the run
left, and what following a Run on a context further gives. -/

namespace Sys2Proof.Machine

theorem Steps.trans {T : OpTable} {s t u : State} (h1 : Steps T s t) (h2 : Steps T t u) : Steps T s u := by
  induction h2 with
  | refl => exact h1
  | tail _ hp ih => exact .tail ih hp

/-- What the result of a bounded run says of the chain of passes (R154). -/
theorem runFrom_spec (T : OpTable) : ∀ (n : Nat) (s : State),
    match runFrom T n s with
    | (.running, t) => Steps T s t
    | (.halted, t) => HaltsIn T s t
    | (.fault f, t) => FaultsIn T s f t
    | (.refused _, _) => True
  | 0, s => .refl s
  | n + 1, s => by
    rw [runFrom]
    cases hp : passTable T s with
    | next t =>
      have ih := runFrom_spec T n t
      have hs : Steps T s t := .tail (.refl s) hp
      simp only
      generalize runFrom T n t = r at ih
      rcases r with ⟨r, u⟩
      cases r with
      | running => exact hs.trans ih
      | halted => obtain ⟨w, hw, h⟩ := ih; exact ⟨w, hs.trans hw, h⟩
      | fault f => obtain ⟨w, hw, h⟩ := ih; exact ⟨w, hs.trans hw, h⟩
      | refused r => trivial
    | halt t => exact ⟨s, .refl s, hp⟩
    | raise f t => exact ⟨s, .refl s, hp⟩
    | refused r => trivial

/-- A chain of passes is what a long enough run goes through. -/
theorem Steps.runFrom {T : OpTable} {s u : State} (h : Steps T s u) : ∀ k, ∃ n, runFrom T n s = runFrom T k u := by
  induction h with
  | refl => exact fun k => ⟨k, rfl⟩
  | tail _ hp ih =>
    intro k
    obtain ⟨n, hn⟩ := ih (k + 1)
    exact ⟨n, by rw [hn, Machine.runFrom, hp]⟩

/-- Only a state in loop state Fetch has a pass (R100). -/
theorem fetch_of_pass {T : OpTable} {s : State} (h : ∀ r, passTable T s ≠ .refused r) : s.loopState = .fetch := by
  by_contra hf
  exact h _ (passTable_not_fetch T hf)

/-- What a pass that halts leaves (R96, R145). -/
theorem pass_halted {T : OpTable} {s t : State} (h : passTable T s = .halt t) :
    ∃ d, T.lookup (s.mem.read s.pc) = some d ∧ d.mnemonic = .brk ∧
      t = { s with pc := s.pc + 1#16, loopState := .halted, latch := none } := by
  have hf : s.loopState = .fetch := fetch_of_pass (by rw [h]; intro r h; cases h)
  rcases passTable_cases T hf with ⟨hp, -⟩ | ⟨hp, -⟩ | ⟨d, hd, hm, hp⟩ | ⟨d, u, -, -, hp⟩ <;> rw [hp] at h <;> cases h
  exact ⟨d, hd, hm, rfl⟩

/-- What a pass that faults leaves (R97, R177). -/
theorem pass_faulted {T : OpTable} {s t : State} {f : Fault} (h : passTable T s = .raise f t) :
    t = faultedAt s ∧
      ((f = .unsupportedOpcode (s.mem.read s.pc) ∧ ∀ d, T.lookup (s.mem.read s.pc) = some d → d.mnemonic.wired = false) ∨
       (f = .invalidAddressingUse ∧ resolvesNone T s)) := by
  have hf : s.loopState = .fetch := fetch_of_pass (by rw [h]; intro r h; cases h)
  rcases passTable_cases T hf with ⟨hp, hw⟩ | ⟨hp, hr⟩ | ⟨d, hd, hm, hp⟩ | ⟨d, u, -, -, hp⟩ <;> rw [hp] at h <;> cases h
  · exact ⟨rfl, .inl ⟨rfl, hw⟩⟩
  · exact ⟨rfl, .inr ⟨rfl, hr⟩⟩

/-- A pass that goes on leaves loop state Fetch (R95). -/
theorem pass_next_fetch {T : OpTable} {s t : State} (h : passTable T s = .next t) : t.loopState = .fetch := by
  have hf : s.loopState = .fetch := fetch_of_pass (by rw [h]; intro r h; cases h)
  rcases passTable_cases T hf with ⟨hp, -⟩ | ⟨hp, -⟩ | ⟨d, hd, hm, hp⟩ | ⟨d, u, -, -, hp⟩ <;> rw [hp] at h <;> cases h
  rfl

/-- Everything `missing` can say of a context whose pc has a value: a register the instruction at pc reads that holds none, or
nothing, and then each register it reads holds one (R25). -/
theorem Context.missing_cases (T : OpTable) {c : Context} (hpc : c.valued.pc = true) :
    (∃ r d, c.missing T = some r ∧ T.lookup (c.state.mem.read c.state.pc) = some d ∧ r ∈ descriptorReads d ∧
      c.valued.has r = false) ∨
    (c.missing T = none ∧ ∀ d, T.lookup (c.state.mem.read c.state.pc) = some d →
      ∀ r, r ∈ descriptorReads d → c.valued.has r = true) := by
  have hm : c.missing T = match T.lookup (c.state.mem.read c.state.pc) with
      | none => none
      | some d => (descriptorReads d).find? (fun r => !c.valued.has r) := by
    rw [Context.missing, if_neg (by simp [hpc])]
    rfl
  cases hd : T.lookup (c.state.mem.read c.state.pc) with
  | none => exact .inr ⟨by rw [hm, hd], fun d h => by cases h⟩
  | some d =>
    cases hx : (descriptorReads d).find? (fun r => !c.valued.has r) with
    | some r =>
      exact .inl ⟨r, d, by rw [hm, hd]; exact hx, rfl, List.mem_of_find?_eq_some hx, by simpa using List.find?_some hx⟩
    | none =>
      refine .inr ⟨by rw [hm, hd]; exact hx, fun e he r hr => ?_⟩
      rw [← Option.some.inj he] at hr
      simpa using List.find?_eq_none.mp hx r hr

/-- Which registers hold a value after an instruction: those from before and those its handler writes whole. -/
theorem Context.valuedAfter_has {T : OpTable} {c : Context} {d : Descriptor}
    (hd : T.lookup (c.state.mem.read c.state.pc) = some d) (r : Reg) :
    (c.valuedAfter T).has r = true ↔ c.valued.has r = true ∨ r ∈ handlerWrites d.mnemonic := by
  have hv : c.valuedAfter T = (handlerWrites d.mnemonic).foldl Valued.give c.valued := by
    rw [Context.valuedAfter, State.descriptorAtPc, hd]
  rw [hv]
  cases d.mnemonic <;> cases r <;> simp [handlerWrites, Valued.give, Valued.has]

/-- No instruction takes the value of pc away. -/
theorem Context.valuedAfter_pc (T : OpTable) (c : Context) : (c.valuedAfter T).pc = c.valued.pc := by
  rw [Context.valuedAfter]
  split
  · rfl
  · rename_i d _
    cases d.mnemonic <;> rfl

/-- When every register holds a value, no instruction misses one (R25). -/
theorem Context.missing_everything (T : OpTable) (s : State) (b : Bool) :
    Context.missing T ⟨s, Valued.everything, b⟩ = none := by
  have hh : ∀ r, Valued.everything.has r = true := by intro r; cases r <;> rfl
  simp only [Context.missing]
  rw [if_neg (by simp [Valued.everything])]
  split
  · rfl
  · simp [hh]

theorem Context.valuedAfter_everything (T : OpTable) (s : State) (b : Bool) :
    Context.valuedAfter T ⟨s, Valued.everything, b⟩ = Valued.everything := by
  simp only [Context.valuedAfter]
  split
  · rfl
  · rename_i d _
    cases d.mnemonic <;> rfl

/-- Following a Run does not look at the mark: it sets it. -/
theorem Context.runFrom_mark (T : OpTable) : ∀ (n : Nat) (c : Context) (b : Bool),
    Context.runFrom T n { c with runInProgress := b } = Context.runFrom T n c
  | 0, _, _ => rfl
  | n + 1, c, b => by
    have hm : Context.missing T { c with runInProgress := b } = c.missing T := rfl
    have hv : Context.valuedAfter T { c with runInProgress := b } = c.valuedAfter T := rfl
    rw [Context.runFrom, Context.runFrom, hm, hv]
    cases c.missing T with
    | some r => rfl
    | none =>
      simp only
      cases passTable T c.state with
      | next t =>
        have ih := Context.runFrom_mark T n { c with state := t, valued := c.valuedAfter T } b
        exact ih
      | halt t => rfl
      | raise f t => rfl
      | refused r => rfl

/-- What following a Run leaves: still in progress exactly where it was followed to no end, and then in loop state Fetch. -/
theorem Context.runFrom_inProgress (T : OpTable) : ∀ (n : Nat) (c : Context), c.state.loopState = .fetch →
    ((Context.runFrom T n c).2.runInProgress = true ↔ (Context.runFrom T n c).1 = .running) ∧
      ((Context.runFrom T n c).1 = .running → (Context.runFrom T n c).2.state.loopState = .fetch)
  | 0, c, h => by simp [Context.runFrom, h]
  | n + 1, c, h => by
    rw [Context.runFrom]
    cases c.missing T with
    | some r => simp
    | none =>
      cases hp : passTable T c.state with
      | next t => exact Context.runFrom_inProgress T n _ (pass_next_fetch hp)
      | halt t => simp
      | raise f t => simp
      | refused r => simp

end Sys2Proof.Machine
end

