-- ==== Sys2Proof/Machine/Assembly.lean ====
section
/-! DEFINITION. The assembler form of an instruction (R61): the conventional 6502 syntax, informative only, PRESUMED (general
knowledge, log 19). No rule depends on it. -/

namespace Sys2Proof.Machine

/-- One hexadecimal digit. -/
def hexDigit (n : Nat) : String :=
  match n with
  | 0 => "0" | 1 => "1" | 2 => "2" | 3 => "3" | 4 => "4" | 5 => "5" | 6 => "6" | 7 => "7"
  | 8 => "8" | 9 => "9" | 10 => "A" | 11 => "B" | 12 => "C" | 13 => "D" | 14 => "E" | _ => "F"

/-- A byte as `nn`. -/
def hexByte (b : Byte) : String := hexDigit (b.toNat / 16) ++ hexDigit (b.toNat % 16)

/-- The operands of an instruction as `$nn` or `$hhll`. -/
def asmOperand : List Byte → String
  | [] => ""
  | [d] => "$" ++ hexByte d
  | l :: h :: _ => "$" ++ hexByte h ++ hexByte l

/-- An operand text in its mode's form (R61). -/
def asmForm (m : Mode) (v : String) : String :=
  match m with
  | .none => ""
  | .immediate => " #" ++ v
  | .zeroPage | .absolute => " " ++ v
  | .zeroPageX | .absoluteX => " " ++ v ++ ",X"
  | .zeroPageY | .absoluteY => " " ++ v ++ ",Y"
  | .indirectX => " (" ++ v ++ ",X)"
  | .indirectY => " (" ++ v ++ "),Y"

/-- A mnemonic as the source writes it (R61). -/
def asmMnemonic : Mnemonic → String
  | .and => "AND" | .lda => "LDA" | .sta => "STA" | .tax => "TAX" | .inx => "INX" | .brk => "BRK"
  | .unwired n => n

/-- The assembler text of a form of any table (R61). -/
def asmOf (f : Form) : String := asmMnemonic f.mnemonic ++ asmForm f.mode (asmOperand f.operands)

/-- The assembler text of an instruction (R61). -/
def asm (i : Instr) : String := asmOf i.form

end Sys2Proof.Machine
end

