-- ==== Sys2Proof/Tests/Slice0.lean ====
section
/-! SUPPORT. Tests and witnesses. The expected values are the spec's own (30_encoding.md R56 for bytes, 95_test_vectors.md for steps, named
by the vector's id), never the model's. `witness_<Name>` shows a state and operands that meet the hypotheses of the obligation
<Name>. -/

namespace Sys2Proof.Tests

set_option Elab.async false

open Sys2Proof Sys2Proof.Machine

/-- A state in loop state Fetch with these bytes written from pc on, after these cells. -/
def st (A X Y P : Byte) (pc : Word) (code : List Byte) (cells : List (Word × Byte) := []) : State where
  A := A
  X := X
  Y := Y
  P := P
  pc := pc
  mem := (cells.foldl (fun (m : Memory) c => m.write c.1 c.2) []).writeBytes pc code
  loopState := .fetch
  latch := none

/-- A, X, Y, P and pc after a step that answers a next state. -/
def regs : Host.Outcome State Fault Refusal → Option (Byte × Byte × Byte × Byte × Word)
  | .next t => some (t.A, t.X, t.Y, t.P, t.pc)
  | _ => none

/-- A and pc after a pass that goes on. -/
def regsOf : Pass → Option (Byte × Word)
  | .next t => some (t.A, t.pc)
  | _ => none

/-- The byte at a after a step that answers a next state. -/
def cell (a : Word) : Host.Outcome State Fault Refusal → Option Byte
  | .next t => some (t.mem.read a)
  | _ => none

/-- The loop state after a step that answers a next state. -/
def loopAfter : Host.Outcome State Fault Refusal → Option LoopState
  | .next t => some t.loopState
  | _ => none

/-- The fault a step ends in. -/
def faultOf : Host.Outcome State Fault Refusal → Option Fault
  | .fault f => some f
  | _ => none

/-- The refusal a step ends in. -/
def refusalOf : Host.Outcome State Fault Refusal → Option Refusal
  | .refused r => some r
  | _ => none

/-! ### Well-formed tables and instructions: an ill-formed one for each check -/

theorem test_wf_opTable : Config.opTable.wf = true := by decide
theorem test_wf_unwired_refused : OpTable.wf [⟨0x4C, .unwired "JMP", 3, 3, .none⟩] = false := by decide
theorem test_wf_lda_none_refused : OpTable.wf [⟨0xA9, .lda, 1, 2, .none⟩] = false := by decide
theorem test_wf_tax_with_mode_refused : OpTable.wf [⟨0xAA, .tax, 2, 2, .zeroPage⟩] = false := by decide
theorem test_wf_length_refused : OpTable.wf [⟨0xAD, .lda, 2, 4, .absolute⟩] = false := by decide
theorem test_wf_duplicate_refused :
    OpTable.wf [⟨0xA9, .lda, 2, 2, .immediate⟩, ⟨0xA9, .and, 2, 2, .immediate⟩] = false := by decide
theorem test_wf_zeroPageY_accepted : OpTable.wf [⟨0xB6, .lda, 2, 4, .zeroPageY⟩] = true := by decide
theorem test_instr_without_row_refused : Instr.wfIn [⟨0xA9, .lda, 2, 2, .immediate⟩] (.ldaZp 0x10) = false := by decide
theorem test_instr_with_wrong_row_refused : Instr.wfIn [⟨0xA5, .lda, 3, 3, .zeroPage⟩] (.ldaZp 0x10) = false := by decide
theorem test_form_without_row_refused : Form.wfIn [⟨0xA9, .lda, 2, 2, .immediate⟩] ⟨.lda, .zeroPageY, [0x10]⟩ = false := by decide
theorem test_form_with_wrong_operands_refused : Form.wfIn [⟨0xA9, .lda, 2, 2, .immediate⟩] ⟨.lda, .immediate, []⟩ = false := by
  decide
theorem test_memory_unsorted_refused : Memory.wf [(2, 0x01#8), (1, 0x01#8)] = false := by decide
theorem test_memory_repeat_refused : Memory.wf [(2, 0x01#8), (2, 0x03#8)] = false := by decide
theorem test_memory_default_refused : Memory.wf [(2, 0x00#8)] = false := by decide
theorem test_memory_outside_refused : Memory.wf [(65536, 0x01#8)] = false := by decide
theorem test_memory_accepted : Memory.wf [(0, 0x01#8), (65535, 0x01#8)] = true := by decide

/-! ### Decoding: every row of R56, its opcode byte written out bit by bit, with an operand whose bits differ -/

theorem test_decode_brk : decode [0b00000000] = .ok (.brk, []) := by decide +kernel
theorem test_decode_andIndX : decode [0b00100001, 0b00111101] = .ok (.andIndX 0x3D, []) := by decide +kernel
theorem test_decode_andZp : decode [0b00100101, 0b00111101] = .ok (.andZp 0x3D, []) := by decide +kernel
theorem test_decode_andImm : decode [0b00101001, 0b00111101] = .ok (.andImm 0x3D, []) := by decide +kernel
theorem test_decode_andAbs : decode [0b00101101, 0b00110100, 0b10010010] = .ok (.andAbs 0x9234, []) := by decide +kernel
theorem test_decode_andIndY : decode [0b00110001, 0b00111101] = .ok (.andIndY 0x3D, []) := by decide +kernel
theorem test_decode_andZpX : decode [0b00110101, 0b00111101] = .ok (.andZpX 0x3D, []) := by decide +kernel
theorem test_decode_andAbsY : decode [0b00111001, 0b00110100, 0b10010010] = .ok (.andAbsY 0x9234, []) := by decide +kernel
theorem test_decode_andAbsX : decode [0b00111101, 0b00110100, 0b10010010] = .ok (.andAbsX 0x9234, []) := by decide +kernel
theorem test_decode_staIndX : decode [0b10000001, 0b00111101] = .ok (.staIndX 0x3D, []) := by decide +kernel
theorem test_decode_staZp : decode [0b10000101, 0b00111101] = .ok (.staZp 0x3D, []) := by decide +kernel
theorem test_decode_staAbs : decode [0b10001101, 0b00110100, 0b10010010] = .ok (.staAbs 0x9234, []) := by decide +kernel
theorem test_decode_staIndY : decode [0b10010001, 0b00111101] = .ok (.staIndY 0x3D, []) := by decide +kernel
theorem test_decode_staZpX : decode [0b10010101, 0b00111101] = .ok (.staZpX 0x3D, []) := by decide +kernel
theorem test_decode_staAbsY : decode [0b10011001, 0b00110100, 0b10010010] = .ok (.staAbsY 0x9234, []) := by decide +kernel
theorem test_decode_staAbsX : decode [0b10011101, 0b00110100, 0b10010010] = .ok (.staAbsX 0x9234, []) := by decide +kernel
theorem test_decode_ldaIndX : decode [0b10100001, 0b00111101] = .ok (.ldaIndX 0x3D, []) := by decide +kernel
theorem test_decode_ldaZp : decode [0b10100101, 0b00111101] = .ok (.ldaZp 0x3D, []) := by decide +kernel
theorem test_decode_ldaImm : decode [0b10101001, 0b00111101] = .ok (.ldaImm 0x3D, []) := by decide +kernel
theorem test_decode_tax : decode [0b10101010] = .ok (.tax, []) := by decide +kernel
theorem test_decode_ldaAbs : decode [0b10101101, 0b00110100, 0b10010010] = .ok (.ldaAbs 0x9234, []) := by decide +kernel
theorem test_decode_ldaIndY : decode [0b10110001, 0b00111101] = .ok (.ldaIndY 0x3D, []) := by decide +kernel
theorem test_decode_ldaZpX : decode [0b10110101, 0b00111101] = .ok (.ldaZpX 0x3D, []) := by decide +kernel
theorem test_decode_ldaAbsY : decode [0b10111001, 0b00110100, 0b10010010] = .ok (.ldaAbsY 0x9234, []) := by decide +kernel
theorem test_decode_ldaAbsX : decode [0b10111101, 0b00110100, 0b10010010] = .ok (.ldaAbsX 0x9234, []) := by decide +kernel
theorem test_decode_inx : decode [0b11101000] = .ok (.inx, []) := by decide +kernel

theorem test_decode_no_bytes : decode [] = .error .noBytes := by decide
theorem test_decode_nop_refused : decode [0xEA] = .error (.unsupported 0xEA) := by decide +kernel
theorem test_decode_sta_immediate_refused : decode [0x89, 0x00] = .error (.unsupported 0x89) := by decide +kernel
theorem test_decode_jmp_refused : decode [0x4C, 0x00, 0x80] = .error (.unsupported 0x4C) := by decide +kernel
theorem test_decode_truncated : decode [0xAD, 0x34] = .error (.truncated 0xAD) := by decide +kernel
theorem test_decode_leaves_the_rest : decode [0xAA, 0xE8, 0x00] = .ok (.tax, [0xE8, 0x00]) := by decide +kernel
theorem test_decode_P1 : decodeAll [0xA9, 0xC0, 0xAA, 0xE8, 0x00] = .ok [.ldaImm 0xC0, .tax, .inx, .brk] := by decide +kernel
theorem test_decode_other_table_sta_immediate :
    decodeWith [⟨0x89, .sta, 2, 2, .immediate⟩] [0x89, 0x12, 0x34] = .ok (⟨.sta, .immediate, [0x12]⟩, [0x34]) := by
  decide +kernel
theorem test_decode_other_table_zeroPageY :
    decodeWith [⟨0xB6, .lda, 2, 4, .zeroPageY⟩] [0xB6, 0x10] = .ok (⟨.lda, .zeroPageY, [0x10]⟩, []) := by decide +kernel
theorem test_decodeTableWord_brk : decodeTableWord 8 0x00 = some .brk := by decide +kernel
theorem test_decodeTableWord_staAbs : decodeTableWord 24 0x12348D = some (.staAbs 0x1234) := by decide +kernel
theorem test_decodeTableWord_short : decodeTableWord 8 0x1234AD = some (.ldaAbs 0x0000) := by decide +kernel
theorem test_decodeTableWord_refused : decodeTableWord 8 0xEA = none := by decide +kernel
theorem test_encode_low_byte_first : encode (.ldaAbsX 0x1234) = [0xBD, 0x34, 0x12] := by decide
theorem test_asm_indirectX : asm (.staIndX 0xFF) = "STA ($FF,X)" := by decide +kernel
theorem test_asm_zeroPageY : asmOf ⟨.lda, .zeroPageY, [0x10]⟩ = "LDA $10,Y" := by decide +kernel
theorem test_asm_absoluteY : asm (.ldaAbsY 0x0200) = "LDA $0200,Y" := by decide +kernel

/-! ### SetZN (section 2.2), the resolver (section 2.1) -/

theorem test_Z3 : setZN 0x00 0xFF = 0x7F := by decide
theorem test_Z5 : setZN 0x7F 0xFF = 0x7D := by decide
theorem test_Z8 : setZN 0xFF 0x7D = 0xFD := by decide
theorem test_A2 : resolve .immediate (st 0 0x33 0x33 0 0x0000 [0x42] []) = .ok 0x0000 := by decide +kernel
theorem test_A5 : resolve .zeroPageX (st 0 0x0F 0x33 0 0x8001 [0xF8] []) = .ok 0x0007 := by decide +kernel
theorem test_A8 : resolve .zeroPageY (st 0 0x33 0x0F 0 0x8001 [0xF8] []) = .ok 0x0007 := by decide +kernel
theorem test_A12 : resolve .absoluteX (st 0 0x02 0x33 0 0x8001 [0xFF, 0xFF] []) = .ok 0x0001 := by decide +kernel
theorem test_A13 : resolve .absoluteY (st 0 0x33 0x20 0 0x8001 [0xF0, 0x00] []) = .ok 0x0110 := by decide +kernel
theorem test_A17 : resolve .indirectX (st 0 0x00 0x33 0 0x8001 [0xFF] [(0xFF, 0x00), (0x00, 0x03), (0x0100, 0x09)]) = .ok 0x0300 := by decide +kernel
theorem test_A22 : resolve .indirectY (st 0 0x33 0x02 0 0x8001 [0xFF] [(0xFF, 0xFE), (0x00, 0xFF)]) = .ok 0x0000 := by decide +kernel
theorem test_A23 : resolve .none (st 0 0 0 0 0x8001 []) = .error .invalidAddressingUse := by decide

/-! ### One step (sections 2.3 to 2.7) -/

theorem test_L1 : regs (step (st 0x55 0x00 0x00 0x80 0x8000 [0xA9, 0x00])) =
    some (0x00, 0x00, 0x00, 0x02, 0x8002) := by decide +kernel
theorem test_L4 : regs (step (st 0x00 0x00 0x00 0x00 0x8000 [0xA5, 0x10] [(0x0010, 0xFF)])) =
    some (0xFF, 0x00, 0x00, 0x80, 0x8002) := by decide +kernel
theorem test_L5 : regs (step (st 0x00 0x0F 0x00 0x00 0x8000 [0xB5, 0xF8] [(0x0007, 0x99), (0x0107, 0x11)])) =
    some (0x99, 0x0F, 0x00, 0x80, 0x8002) := by decide +kernel
theorem test_L7 : regs (step (st 0x00 0x00 0x00 0x00 0x8000 [0xAD, 0x34, 0x12] [(0x1234, 0x55)])) =
    some (0x55, 0x00, 0x00, 0x00, 0x8003) := by decide +kernel
theorem test_L9 : regs (step (st 0x00 0x02 0x00 0x00 0x8000 [0xBD, 0xFF, 0xFF] [(0x0001, 0x33)])) =
    some (0x33, 0x02, 0x00, 0x00, 0x8003) := by decide +kernel
theorem test_L10 : regs (step (st 0x00 0x00 0x20 0x00 0x8000 [0xB9, 0xF0, 0x00] [(0x0010, 0x66), (0x0110, 0x44)])) =
    some (0x44, 0x00, 0x20, 0x00, 0x8003) := by decide +kernel
theorem test_L11 : regs (step (st 0x00 0x00 0x00 0x00 0x8000 [0xA1, 0xFF] [(0x00FF, 0x00), (0x0000, 0x03), (0x0100, 0x09), (0x0300, 0x77)])) =
    some (0x77, 0x00, 0x00, 0x00, 0x8002) := by decide +kernel
theorem test_L13 : regs (step (st 0x00 0x00 0x01 0x00 0x8000 [0xB1, 0xFF] [(0x00FF, 0xFF), (0x0000, 0xFF)])) =
    some (0xFF, 0x00, 0x01, 0x80, 0x8002) := by decide +kernel
theorem test_L16 : regs (step (st 0x00 0x00 0x00 0x00 0xFFFF [0xA9, 0x42])) =
    some (0x42, 0x00, 0x00, 0x00, 0x0001) := by decide +kernel
theorem test_T1 : regs (step (st 0x00 0x00 0x00 0x80 0x8000 [0x85, 0x10])) =
    some (0x00, 0x00, 0x00, 0x80, 0x8002) := by decide +kernel
theorem test_T1_stored : cell 0x0010 (step (st 0x00 0x00 0x00 0x80 0x8000 [0x85, 0x10])) = some 0x00 := by decide +kernel
theorem test_T3 : regs (step (st 0x3C 0x01 0x00 0x00 0x8000 [0x95, 0xFF])) =
    some (0x3C, 0x01, 0x00, 0x00, 0x8002) := by decide +kernel
theorem test_T3_stored : cell 0x0000 (step (st 0x3C 0x01 0x00 0x00 0x8000 [0x95, 0xFF])) = some 0x3C := by decide +kernel
theorem test_T4 : regs (step (st 0x12 0x00 0x00 0x00 0x8000 [0x8D, 0xFC, 0xFF])) =
    some (0x12, 0x00, 0x00, 0x00, 0x8003) := by decide +kernel
theorem test_T4_stored : cell 0xFFFC (step (st 0x12 0x00 0x00 0x00 0x8000 [0x8D, 0xFC, 0xFF])) = some 0x12 := by decide +kernel
theorem test_T5 : regs (step (st 0xA5 0x01 0x00 0x00 0x8000 [0x9D, 0xFF, 0x12])) =
    some (0xA5, 0x01, 0x00, 0x00, 0x8003) := by decide +kernel
theorem test_T5_stored : cell 0x1300 (step (st 0xA5 0x01 0x00 0x00 0x8000 [0x9D, 0xFF, 0x12])) = some 0xA5 := by decide +kernel
theorem test_T6 : regs (step (st 0x5A 0x00 0x05 0x00 0x8000 [0x99, 0xFE, 0xFF])) =
    some (0x5A, 0x00, 0x05, 0x00, 0x8003) := by decide +kernel
theorem test_T6_stored : cell 0x0003 (step (st 0x5A 0x00 0x05 0x00 0x8000 [0x99, 0xFE, 0xFF])) = some 0x5A := by decide +kernel
theorem test_T11 : regs (step (st 0x40 0x00 0x00 0x00 0x8000 [0x81, 0x20] [(0x0020, 0x20), (0x0021, 0x00)])) =
    some (0x40, 0x00, 0x00, 0x00, 0x8002) := by decide +kernel
theorem test_T11_stored : cell 0x0020 (step (st 0x40 0x00 0x00 0x00 0x8000 [0x81, 0x20] [(0x0020, 0x20), (0x0021, 0x00)])) = some 0x40 := by decide +kernel
theorem test_T8 : regs (step (st 0x66 0x00 0x10 0x00 0x8000 [0x91, 0xFF] [(0x00FF, 0xF8), (0x0000, 0x02)])) =
    some (0x66, 0x00, 0x10, 0x00, 0x8002) := by decide +kernel
theorem test_T8_stored : cell 0x0308 (step (st 0x66 0x00 0x10 0x00 0x8000 [0x91, 0xFF] [(0x00FF, 0xF8), (0x0000, 0x02)])) = some 0x66 := by decide +kernel
theorem test_N4 : regs (step (st 0x0F 0x00 0x00 0x7D 0x8000 [0x29, 0xF0])) =
    some (0x00, 0x00, 0x00, 0x7F, 0x8002) := by decide +kernel
theorem test_N5 : regs (step (st 0xF0 0x00 0x00 0x00 0x8000 [0x25, 0x10] [(0x0010, 0x88)])) =
    some (0x80, 0x00, 0x00, 0x80, 0x8002) := by decide +kernel
theorem test_N6 : regs (step (st 0xFF 0x20 0x00 0x00 0x8000 [0x35, 0xF0] [(0x0010, 0x3C)])) =
    some (0x3C, 0x20, 0x00, 0x00, 0x8002) := by decide +kernel
theorem test_N8 : regs (step (st 0x00 0x00 0x00 0x00 0x8000 [0x2D, 0x34, 0x12] [(0x1234, 0x55)])) =
    some (0x00, 0x00, 0x00, 0x02, 0x8003) := by decide +kernel
theorem test_N9 : regs (step (st 0xAA 0x01 0x00 0x00 0x8000 [0x3D, 0x34, 0x12] [(0x1235, 0x55)])) =
    some (0x00, 0x01, 0x00, 0x02, 0x8003) := by decide +kernel
theorem test_N10 : regs (step (st 0xC3 0x00 0x01 0x00 0x8000 [0x39, 0xFF, 0xFF] [(0x0000, 0x81)])) =
    some (0x81, 0x00, 0x01, 0x80, 0x8003) := by decide +kernel
theorem test_N12 : regs (step (st 0xF0 0x01 0x00 0x00 0x8000 [0x21, 0xFE] [(0x00FF, 0x00), (0x0000, 0x02), (0x0200, 0x9F)])) =
    some (0x90, 0x01, 0x00, 0x80, 0x8002) := by decide +kernel
theorem test_N14 : regs (step (st 0x7F 0x00 0x02 0x00 0x8000 [0x31, 0xFF] [(0x00FF, 0xFE), (0x0000, 0xFE)])) =
    some (0x00, 0x00, 0x02, 0x02, 0x8002) := by decide +kernel
theorem test_X1 : regs (step (st 0x80 0x11 0x00 0x00 0x8000 [0xAA])) =
    some (0x80, 0x80, 0x00, 0x80, 0x8001) := by decide +kernel
theorem test_X3 : regs (step (st 0x7F 0x00 0x00 0xFF 0x8000 [0xAA])) =
    some (0x7F, 0x7F, 0x00, 0x7D, 0x8001) := by decide +kernel
theorem test_X4 : regs (step (st 0x00 0xFF 0x00 0x00 0x8000 [0xE8])) =
    some (0x00, 0x00, 0x00, 0x02, 0x8001) := by decide +kernel
theorem test_X7 : regs (step (st 0x33 0xFE 0x44 0x7D 0x8000 [0xE8])) =
    some (0x33, 0xFF, 0x44, 0xFD, 0x8001) := by decide +kernel
theorem test_B1 : regs (step (st 0x12 0x34 0x56 0x80 0x8000 [0x00])) = some (0x12, 0x34, 0x56, 0x80, 0x8001) := by decide +kernel
theorem test_B2 : pass (st 0x01 0x00 0x00 0xFF 0xFFFF [0x00]) =
    .halt { st 0x01 0x00 0x00 0xFF 0x0000 [] with loopState := .halted } := by decide +kernel
theorem test_F1 : pass (st 0x12 0x34 0x56 0x82 0x8000 [0xEA]) =
    .raise (.unsupportedOpcode 0xEA) { st 0x12 0x34 0x56 0x82 0x8000 [0xEA] with pc := 0x8001, loopState := .faulted } := by
  decide +kernel
theorem test_F4 : faultOf (step (st 0 0 0 0 0x8000 [0xA2, 0x05])) = some (.unsupportedOpcode 0xA2) := by decide +kernel
theorem test_K3 : refusalOf (step { st 0 0 0 0 0x8000 [0xE8] with loopState := .halted }) = some (.stepNotEnabled .halted) := by
  decide +kernel

/-! ### The instruction placed where step fetches, and the host operations (section 2.8) -/

theorem test_fetchWord_brk : loopAfter (step (State.reset.withFetchWord 8 0x00)) = some .halted := by decide +kernel
theorem test_fetchWord_lda : regs (step (State.reset.withFetchWord 16 0x80A9)) = some (0x80, 0, 0, 0x80, 0x0002) := by
  decide +kernel
theorem test_fetchWord_sta : cell 0x1234 (step ({ State.reset with A := 0x5A }.withFetchWord 24 0x12348D)) = some 0x5A := by
  decide +kernel
theorem test_fetchWord_faults : faultOf (step (State.reset.withFetchWord 8 0xEA)) = some (.unsupportedOpcode 0xEA) := by decide +kernel

/-- The context the vectors start from. -/
def fresh : Context := Context.create []

/-- The context after these host operations, every Run followed for at most 9 instructions. -/
def after (ops : List HostOp) : Context := (fresh.calls Config.opTable 9 ops).2

/-- The reply of the last host operation, after the others. -/
def reply (ops : List HostOp) (op : HostOp) : Reply := ((after ops).call Config.opTable 9 op).1

theorem test_H1 : (after [.load [0xA9, 0xC0, 0x00]]).state.mem.readBytes 0x8000 3 = [0xA9, 0xC0, 0x00] ∧
    reply [.load [0xA9, 0xC0, 0x00]] (.readWord 0xFFFC) = .word 0x8000 ∧
    reply [.load [0xA9, 0xC0, 0x00]] (.readReg .pc) = .reg (.pc 0x8000) ∧
    reply [.load [0xA9, 0xC0, 0x00]] (.readReg .A) = .refused (.valueless .A) := by decide +kernel
theorem test_H8 : reply [.writeWord 0xFFFC 0x1234, .reset] (.readReg .pc) = .reg (.pc 0x1234) := by decide +kernel
theorem test_H9 : reply [.reset] (.readReg .pc) = .reg (.pc 0x0000) := by decide +kernel
theorem test_H11 : reply [.writeWord 0x0030 0x1110] (.readByte 0x0030) = .byte 0x10 ∧
    reply [.writeWord 0x0030 0x1110] (.readByte 0x0031) = .byte 0x11 := by decide +kernel
theorem test_H12 : reply [.writeWord 0xFFFF 0xBEEF] (.readByte 0xFFFF) = .byte 0xEF ∧
    reply [.writeWord 0xFFFF 0xBEEF] (.readByte 0x0000) = .byte 0xBE ∧
    reply [.writeWord 0xFFFF 0xBEEF] (.readWord 0xFFFF) = .word 0xBEEF := by decide +kernel
theorem test_H13 : reply [.writeByte 0x10042 0x07] (.readByte 0x0042) = .byte 0x07 := by decide +kernel
theorem test_H17 : reply [] .run = .ran (.refused (.valueless .pc)) := rfl
theorem test_run_before_reset : reply [.load [0xAA]] .run = .ran (.refused (.valueless .A)) := by decide +kernel
theorem test_run_immediate_before_reset : reply [.load [0xA9, 0x01, 0xAA, 0x00]] .run = .ran .halted ∧
    reply [.load [0xA9, 0x01, 0xAA, 0x00], .run] (.readReg .X) = .reg (.X 0x01) := by decide +kernel
theorem test_H14 : reply [] (.loadAndRun [0xA9, 0xC0, 0xAA, 0xE8, 0x00]) = .ran .halted ∧
    reply [.loadAndRun [0xA9, 0xC0, 0xAA, 0xE8, 0x00]] (.readReg .X) = .reg (.X 0xC1) := by decide +kernel
theorem test_no_host_move_during_a_run :
    reply [.loadAndRun [0xE8, 0xE8, 0xE8, 0xE8, 0xE8, 0xE8, 0xE8, 0xE8, 0xE8, 0xE8, 0x00]] .reset = .refused .runInProgress ∧
    reply [.loadAndRun [0xE8, 0xE8, 0xE8, 0xE8, 0xE8, 0xE8, 0xE8, 0xE8, 0xE8, 0xE8, 0x00]] (.writeByte 0 0x55) =
      .refused .runInProgress := by decide +kernel
theorem test_run_goes_on :
    ((after [.loadAndRun [0xE8, 0xE8, 0xE8, 0xE8, 0xE8, 0xE8, 0xE8, 0xE8, 0xE8, 0xE8, 0x00]]).goOn Config.opTable 2).1 =
      some .halted := by decide +kernel

/-! ### Witnesses -/

/-- The byte b at the last address, its operand bytes at 0x0000 on, with registers at the ends of their ranges. -/
def atByte (b : Byte) : State := st 0xFF 0xFF 0xFF 0xFF 0xFFFF [b, 0xFF, 0xFF] [(0x00FE, 0x34)]

theorem witness_LoadImmediateSteps : (atByte 0xA9).atOpcode 0xA9 ∧ (atByte 0x29).atOpcode 0x29 ∧
    (atByte 0xA9).operandByte = 0xFF := by decide +kernel
theorem witness_LoadZeroPageSteps : (atByte 0xA5).atOpcode 0xA5 ∧ (atByte 0xB5).atOpcode 0xB5 ∧ (atByte 0x25).atOpcode 0x25 ∧
    (atByte 0x35).atOpcode 0x35 := by decide +kernel
theorem witness_LoadAbsoluteSteps : (atByte 0xAD).atOpcode 0xAD ∧ (atByte 0xBD).atOpcode 0xBD ∧ (atByte 0xB9).atOpcode 0xB9 ∧
    (atByte 0x2D).atOpcode 0x2D ∧ (atByte 0x3D).atOpcode 0x3D ∧ (atByte 0x39).atOpcode 0x39 ∧
    (atByte 0xAD).operandWord = 0xFFFF := by decide +kernel
theorem witness_LoadIndirectSteps : (atByte 0xA1).atOpcode 0xA1 ∧ (atByte 0xB1).atOpcode 0xB1 ∧ (atByte 0x21).atOpcode 0x21 ∧
    (atByte 0x31).atOpcode 0x31 := by decide +kernel
theorem witness_StaZeroPageSteps : (atByte 0x85).atOpcode 0x85 ∧ (atByte 0x95).atOpcode 0x95 := by decide +kernel
theorem witness_StaAbsoluteSteps : (atByte 0x8D).atOpcode 0x8D ∧ (atByte 0x9D).atOpcode 0x9D ∧ (atByte 0x99).atOpcode 0x99 := by
  decide +kernel
theorem witness_StaIndirectSteps : (atByte 0x81).atOpcode 0x81 ∧ (atByte 0x91).atOpcode 0x91 := by decide +kernel
theorem witness_TaxStep : (atByte 0xAA).atOpcode 0xAA := by decide +kernel
theorem witness_InxStep : (atByte 0xE8).atOpcode 0xE8 ∧ (st 0 0x7F 0 0 0x8000 [0xE8]).atOpcode 0xE8 ∧
    (st 0 0xFE 0 0 0x8000 [0xE8]).atOpcode 0xE8 := by decide +kernel
theorem witness_BrkStep : (atByte 0x00).atOpcode 0x00 := by decide +kernel
theorem witness_HandlersWorkForEveryMode : resolve .absoluteX (atByte 0xBD) = .ok 0x00BC ∧
    resolve .none (atByte 0xAA) = .error .invalidAddressingUse := by decide +kernel
theorem witness_LoadFrame : ∃ t, (Instr.ldaAbsY 0xFFFF).mnemonic = .lda ∧ exec (.ldaAbsY 0xFFFF) (atByte 0xB9) = .next t :=
  ⟨_, rfl, rfl⟩
theorem witness_LoadFrame_and : ∃ t, (Instr.andIndX 0xFF).mnemonic = .and ∧ exec (.andIndX 0xFF) (atByte 0x21) = .next t :=
  ⟨_, rfl, rfl⟩
theorem witness_StoreFrame : ∃ t, exec (.staAbs 0xFFFF) (atByte 0x8D) = .next t ∧
    storeAddress (.staAbs 0xFFFF) (atByte 0x8D) = some 0xFFFF ∧ (Instr.staAbs 0xFFFF).mnemonic = .sta := ⟨_, rfl, rfl, rfl⟩
theorem witness_StoreFrame_no_store : ∃ t, exec .brk (atByte 0x00) = .next t ∧ storeAddress .brk (atByte 0x00) = none :=
  ⟨_, rfl, rfl⟩
theorem witness_RegisterAndSystemFrame : ∃ t u v, exec .tax (atByte 0xAA) = .next t ∧ exec .inx (atByte 0xE8) = .next u ∧
    exec .brk (atByte 0x00) = .next v := ⟨_, _, _, rfl, rfl, rfl⟩
theorem witness_PcMovesByTheLength : (atByte 0xEA).loopState = .fetch ∧ Config.opTable.lookup ((atByte 0xEA).mem.read 0xFFFF) = none ∧
    (Config.opTable.lookup ((atByte 0x00).mem.read 0xFFFF)).map (fun d => d.mnemonic) = some .brk ∧
    (Config.opTable.lookup ((atByte 0xBD).mem.read 0xFFFF)).map (fun d => d.mnemonic) = some .lda := by decide +kernel
theorem witness_OnlyBrkOrAnUnsupportedByteStops : (atByte 0x00).loopState = .fetch ∧ (atByte 0xEA).mem.read 0xFFFF ∉ supportedBytes ∧
    (atByte 0xE8).mem.read 0xFFFF ∈ supportedBytes := by decide +kernel

/-- A table with a descriptor no handler is wired for. -/
def tableWithJmp : OpTable := [⟨0x4C, .unwired "JMP", 3, 3, .absolute⟩]

theorem witness_UnsupportedByteFaults : (atByte 0xFF).mem.read (atByte 0xFF).pc ∉ supportedBytes ∧
    tableWithJmp.lookup ((atByte 0x4C).mem.read (atByte 0x4C).pc) = some ⟨0x4C, .unwired "JMP", 3, 3, .absolute⟩ ∧
    (Mnemonic.unwired "JMP").wired = false := by decide +kernel
theorem witness_NoStepOutsideFetch : ({ atByte 0xE8 with loopState := .halted } : State).loopState ≠ .fetch ∧
    ({ atByte 0xE8 with loopState := .faulted } : State).loopState ≠ .fetch ∧ (fetch (atByte 0xE8)).loopState ≠ .fetch := by decide

/-- The mnemonic of the descriptor at pc. -/
def mnemonicAt (s : State) : Option Mnemonic := (s.descriptorAtPc Config.opTable).map (fun d => d.mnemonic)

theorem witness_FlagsFollowTheResult :
    (mnemonicAt (atByte 0xA1) = some .lda ∧ (regs (step (atByte 0xA1))).isSome) ∧
    (mnemonicAt (atByte 0x35) = some .and ∧ (regs (step (atByte 0x35))).isSome) ∧
    (mnemonicAt (atByte 0xAA) = some .tax ∧ (regs (step (atByte 0xAA))).isSome) ∧
    (mnemonicAt (atByte 0xE8) = some .inx ∧ (regs (step (atByte 0xE8))).isSome) ∧
    (mnemonicAt (atByte 0x99) = some .sta ∧ (regs (step (atByte 0x99))).isSome) ∧
    (mnemonicAt (atByte 0x00) = some .brk ∧ (regs (step (atByte 0x00))).isSome) := by decide +kernel
theorem witness_RegisterReachability : mnemonicAt (atByte 0x91) = some .sta ∧ (regs (step (atByte 0x91))).isSome := by
  decide +kernel
theorem witness_StepKeepsSinceReset : (st 0x01 0xFE 0x00 0x80 0x8000 [0xE8]).SinceReset ∧
    (regs (step (st 0x01 0xFE 0x00 0x80 0x8000 [0xE8]))).isSome ∧ (st 0 0 0 0x02 0x8000 [0xAA]).SinceReset ∧
    (st 0 0 0 0x00 0x8000 [0xAA]).SinceReset := by decide +kernel
theorem witness_StepKeepsInvariant : (atByte 0x8D).Inv ∧ (regs (step (atByte 0x8D))).isSome ∧ (atByte 0xEA).Inv ∧
    (pass (atByte 0xEA) = .raise (.unsupportedOpcode 0xEA) (faultedAt (atByte 0xEA))) := by decide +kernel
theorem witness_StepKeepsInvariant_halted : ({ atByte 0x00 with loopState := .halted } : State).Inv ∧
    ({ atByte 0x00 with loopState := .faulted } : State).Inv := by decide +kernel
theorem witness_InvariantsHoldAtReset : ({ st 0x01 0x02 0x03 0x04 0x8000 [] with loopState := .faulted } : State).mem = [] := rfl
theorem witness_HostOperationsKeepInvariant : Memory.wf [(0xFFFF, 0x01#8)] = true ∧
    (⟨atByte 0x8D, Valued.nothing, true⟩ : Context).state.Inv := by decide +kernel
theorem witness_HostWordAccess : 0x10001 % 65536 ≠ 0xFFFF % 65536 ∧ 0x10001 % 65536 ≠ (0xFFFF + 1) % 65536 := by decide
theorem witness_IndirectPointersStayInPageZero : 0xFF = ((st 0 0xFF 0xFF 0 0x8001 [0xFF]).mem.read 0x8001).toNat ∧
    0xFF = (st 0 0xFF 0xFF 0 0x8001 [0xFF]).X.toNat ∧ 0xFF = (st 0 0xFF 0xFF 0 0x8001 [0xFF]).Y.toNat := by decide +kernel
theorem witness_DecodedBytesAreTheEncoding : decodeAll [0xBD, 0xFF, 0xFF, 0x00] = .ok [.ldaAbsX 0xFFFF, .brk] := by decide +kernel

/-- A well-formed table whose bytes are not the default ones, with rows that no row of R56 pairs so. -/
def otherTable : OpTable := [⟨0x10, .lda, 3, 4, .absolute⟩, ⟨0x11, .sta, 2, 2, .immediate⟩, ⟨0x12, .lda, 2, 4, .zeroPageY⟩,
  ⟨0x00, .brk, 1, 7, .none⟩]

theorem witness_EveryWellFormedTableDecodesItsEncodings : otherTable.wf = true ∧
    encodeWith otherTable ⟨.lda, .absolute, [0x34, 0x12]⟩ = some [0x10, 0x34, 0x12] ∧
    Form.wfIn otherTable ⟨.sta, .immediate, [0xFF]⟩ = true ∧
    decodeWith otherTable [0x12, 0xFF, 0x00] = .ok (⟨.lda, .zeroPageY, [0xFF]⟩, [0x00]) ∧
    [⟨.sta, .immediate, [0xFF]⟩, ⟨.brk, .none, []⟩].map (encodeWith otherTable) = [[0x11, 0xFF], [0x00]].map some := by
  decide +kernel
theorem witness_StepRunsTheDecodedInstruction : (atByte 0xBD).loopState = .fetch ∧
    decode ((atByte 0xBD).mem.readBytes (atByte 0xBD).pc 3) = .ok (.ldaAbsX 0xFFFF, []) ∧
    (Instr.ldaAbsX 0xFFFF).wfIn Config.opTable = true := by decide +kernel
theorem witness_StepRunsTheDecodedInstruction_brk : decode ((atByte 0x00).mem.readBytes (atByte 0x00).pc 3) =
    .ok (.brk, [0xFF, 0xFF]) := by decide +kernel
theorem witness_AdvanceUnlessRedirected : (fetch (atByte 0xAD)).latch = some ⟨0x0000, 0xAD, none⟩ ∧
    (fetch (atByte 0xAD)).pc = 0x0000 ∧ ({ fetch (atByte 0xAD) with pc := 0x9000 } : State).pc ≠ 0x0000 := by decide +kernel

/-- An ill-formed table: LDA with mode None, TAX, INX and BRK with operands. -/
def oddTable : OpTable :=
  [⟨0xA0, .lda, 1, 2, .none⟩, ⟨0xAA, .tax, 3, 2, .absolute⟩, ⟨0xE8, .inx, 2, 2, .zeroPage⟩, ⟨0x00, .brk, 3, 7, .absolute⟩]

theorem witness_InvalidAddressingUseExactlyForNone : resolvesNone oddTable (atByte 0xA0) :=
  ⟨⟨0xA0, .lda, 1, 2, .none⟩, by decide +kernel, rfl, rfl⟩
theorem witness_InvalidAddressingUseExactlyForNone_wf : otherTable.wf = true := by decide
theorem witness_IllFormedTablesBehaveAsDefined :
    oddTable.lookup ((atByte 0xAA).mem.read 0xFFFF) = some ⟨0xAA, .tax, 3, 2, .absolute⟩ ∧
    oddTable.lookup ((atByte 0xE8).mem.read 0xFFFF) = some ⟨0xE8, .inx, 2, 2, .zeroPage⟩ ∧
    oddTable.lookup ((atByte 0x00).mem.read 0xFFFF) = some ⟨0x00, .brk, 3, 7, .absolute⟩ := by decide +kernel
/-- The mode of the descriptor at pc. -/
def modeAt (s : State) : Option Mode := (s.descriptorAtPc Config.opTable).map (fun d => d.mode)

theorem witness_MemoryAccessesOfAPass : modeAt (atByte 0xAA) = some .none ∧ modeAt (atByte 0xA9) = some .immediate ∧
    modeAt (atByte 0x85) = some .zeroPage ∧ modeAt (atByte 0xBD) = some .absoluteX ∧ modeAt (atByte 0x91) = some .indirectY ∧
    (atByte 0x91).loopState = .fetch ∧ mnemonicAt (atByte 0x91) = some .sta := by decide +kernel
theorem witness_StoredByteIsSeenByTheNextFetch : mnemonicAt (st 0xE8 0 0 0 0x8002 [0x8D, 0x05, 0x80]) = some .sta ∧
    regs (step (st 0xE8 0 0 0 0x8002 [0x8D, 0x05, 0x80])) = some (0xE8, 0, 0, 0, 0x8005) := by decide +kernel
theorem witness_PassDependsOnlyOnWhatItReads : (atByte 0xB1).loopState = .fetch ∧
    (∀ a ∈ readAddresses (accessesTable Config.opTable (atByte 0xB1)),
      ((atByte 0xB1).mem.write 0x4000 0x55).read a = (atByte 0xB1).mem.read a) ∧
    (atByte 0xB1).mem.write 0x4000 0x55 ≠ (atByte 0xB1).mem := by
  have h : readAddresses (accessesTable Config.opTable (atByte 0xB1)) = [0xFFFF, 0x0000, 0x00FF, 0x0000, 0xFFFF] := by
    decide +kernel
  refine ⟨rfl, fun a ha => ?_, by decide +kernel⟩
  rw [h] at ha
  simp only [List.mem_cons, List.not_mem_nil, or_false] at ha
  rcases ha with rfl | rfl | rfl | rfl | rfl <;> decide +kernel
theorem witness_PhasesMakeOnePass : (atByte 0xEA).loopState = .fetch ∧ (atByte 0xA1).loopState = .fetch := by decide
theorem witness_PhasesMakeOnePass_table : ∃ T, phaseTable otherTable = phaseTable T ∧ passTable otherTable = passTable T :=
  ⟨_, rfl, rfl⟩
theorem witness_LoadCopiesTheProgram_too_long : (List.replicate 0x8001 0xE8#8).length > 0x8000 := by
  rw [List.length_replicate]; decide
theorem witness_LoadCopiesTheProgram : (List.replicate 0x8000 0xE8#8).length ≤ 0x8000 ∧
    (List.replicate 0x8000 0xE8#8)[0x7FFF]? = some 0xE8#8 ∧ (0x7FFF#16 : Word).toNat < 0x8000 := by
  rw [List.length_replicate, List.getElem?_replicate]
  decide +kernel
theorem witness_LoadAndRunStartsFresh : (List.replicate 0x8001 0x00#8).length > 0x8000 ∧ ([] : List Byte).length ≤ 0x8000 := by
  rw [List.length_replicate]; decide

theorem witness_RunIsTheClosureOfStep : runFrom Config.opTable 2 (st 0 0 0 0 0x8000 [0xE8, 0x00]) =
      (.halted, { st 0 1 0 0 0x8000 [0xE8, 0x00] with pc := 0x8002, loopState := .halted }) ∧
    runFrom Config.opTable 1 (atByte 0xEA) = (.fault (.unsupportedOpcode 0xEA), faultedAt (atByte 0xEA)) := by decide +kernel
theorem witness_RunEndsOnceForAll : (runFrom Config.opTable 1 (atByte 0x00)).1 ≠ .running := by decide +kernel
theorem witness_HaltedRunEndsAfterABrk :
    HaltsIn Config.opTable (st 0 0 0 0 0x8000 [0xE8, 0x00]) { st 0 1 0 0 0x8000 [0xE8, 0x00] with pc := 0x8002, loopState := .halted } :=
  ⟨{ st 0 1 0 0 0x8000 [0xE8, 0x00] with pc := 0x8001 }, .tail (.refl _) (by decide +kernel), by decide +kernel⟩
theorem witness_RunStartsFromTheStateAsItStands :
    runFrom Config.opTable 1 (atByte 0x00) = (.halted, { atByte 0x00 with pc := 0x0000, loopState := .halted }) ∧
    runFrom Config.opTable 1 (atByte 0xEA) = (.fault (.unsupportedOpcode 0xEA), faultedAt (atByte 0xEA)) := by decide +kernel
theorem witness_RunStartsFromTheStateAsItStands_none :
    runFrom oddTable 1 (atByte 0xA0) = (.fault .invalidAddressingUse, faultedAt (atByte 0xA0)) := by decide +kernel
theorem witness_HostRegisterAccess : Reg.A ≠ (RegVal.pc 0xFFFF).reg ∧ fresh.runInProgress = false := ⟨by decide, rfl⟩
theorem witness_ValuelessRegistersAreRefused : (⟨{ atByte 0xB1 with loopState := .halted }, Valued.nothing, false⟩ : Context).runInProgress =
    false := rfl
theorem witness_ContextRunIsRunWhenAllHaveValues : (⟨atByte 0xB1, Valued.everything, false⟩ : Context).valued = Valued.everything ∧
    (⟨atByte 0xB1, Valued.everything, false⟩ : Context).runInProgress = false ∧
    (List.replicate 0x8001 0xE8#8).length > 0x8000 ∧ (List.replicate 0x8000 0xE8#8).length ≤ 0x8000 := by
  rw [List.length_replicate, List.length_replicate]; decide
theorem witness_ContextsAreIndependent : (1 : Nat) ≠ 0 ∧ ([⟨atByte 0xB1, Valued.everything, false⟩, fresh] : Environment)[0]? =
    some ⟨atByte 0xB1, Valued.everything, false⟩ := ⟨by decide, rfl⟩

/-- A context on which no Run is in progress and only pc holds a value. -/
def onlyPc (s : State) : Context := ⟨s, ⟨false, false, false, false, true⟩, false⟩

theorem witness_RunStopsBeforeReadingAValuelessRegister : (onlyPc (atByte 0x12)).valued.pc = true ∧
    (onlyPc (atByte 0x12)).state.loopState = .fetch ∧ otherTable.lookup ((atByte 0x12).mem.read (atByte 0x12).pc) = some ⟨0x12, .lda, 2, 4, .zeroPageY⟩ ∧
    .Y ∈ descriptorReads ⟨0x12, .lda, 2, 4, .zeroPageY⟩ ∧
    (⟨false, false, false, false, true⟩ : Valued).has .Y = false := by decide +kernel
theorem witness_RunStopsBeforeReadingAValuelessRegister_all : (∀ r ∈ descriptorReads ⟨0x12, .lda, 2, 4, .zeroPageY⟩,
      (⟨false, false, true, false, true⟩ : Valued).has r = true) ∧
    (regsOf (passTable otherTable (atByte 0x12))).isSome := by decide +kernel
theorem witness_RunStopsBeforeReadingAValuelessRegister_ends : oddTable.lookup 0xEA = none ∧
    oddTable.lookup 0x00 = some ⟨0x00, .brk, 3, 7, .absolute⟩ ∧ oddTable.lookup 0xA0 = some ⟨0xA0, .lda, 1, 2, .none⟩ ∧
    tableWithJmp.lookup 0x4C = some ⟨0x4C, .unwired "JMP", 3, 3, .absolute⟩ ∧ (Mnemonic.unwired "JMP").wired = false ∧
    descriptorReads ⟨0x00, .brk, 3, 7, .absolute⟩ = [] ∧ descriptorReads ⟨0xA0, .lda, 1, 2, .none⟩ = [] ∧
    passTable oddTable (atByte 0x00) = .halt { atByte 0x00 with pc := 0x0000, loopState := .halted } ∧
    passTable oddTable (atByte 0xA0) = .raise .invalidAddressingUse (faultedAt (atByte 0xA0)) := by decide +kernel
/-- LDA #$01 gives A a value, and the INX after it reads X, which has none. -/
theorem witness_RunStopsBeforeReadingAValuelessRegister_later :
    Context.runFrom Config.opTable 1 (onlyPc (st 0 0 0 0 0x8000 [0xA9, 0x01, 0xE8])) =
      (.running, ⟨{ st 1 0 0 0 0x8000 [0xA9, 0x01, 0xE8] with pc := 0x8002 }, ⟨true, false, false, false, true⟩, true⟩) ∧
    Context.runFrom Config.opTable 2 (onlyPc (st 0 0 0 0 0x8000 [0xA9, 0x01, 0xE8])) =
      (.refused (.valueless .X),
        ⟨{ st 1 0 0 0 0x8000 [0xA9, 0x01, 0xE8] with pc := 0x8002 }, ⟨true, false, false, false, true⟩, false⟩) := by
  decide +kernel
theorem witness_RunStopsBeforeReadingAValuelessRegister_marks : (fresh.runInProgress = false ∧ fresh.valued.pc = false) ∧
    ((onlyPc (atByte 0x12)).runInProgress = false) ∧
    ({ onlyPc (atByte 0x12) with runInProgress := true } : Context).runInProgress = true := ⟨⟨rfl, rfl⟩, rfl, rfl⟩
theorem witness_HostHasNoMoveDuringARun : (⟨atByte 0xB1, Valued.everything, true⟩ : Context).runInProgress = true ∧
    ((⟨atByte 0xB1, Valued.everything, false⟩ : Context).call Config.opTable 1 .run).1 = .ran .running ∧
    (fresh.call Config.opTable 0 (.loadAndRun [0xE8])).1 = .ran .running := by decide +kernel

end Sys2Proof.Tests
end

section
/-! Obligation O37: forms, their encodings and the decoder, over any well-formed opcode table. -/

namespace Sys2Proof

/-- The length R52 gives a mode counts the opcode byte. -/
theorem Mode.length_pos (m : Mode) : 0 < m.length := by cases m <;> decide

theorem OpTable.wf_length {T : OpTable} {d : Descriptor} (hT : T.wf = true) (hd : d ∈ T) : d.length = d.mode.length := by
  have h := OpTable.wf_descriptor hT hd
  simp only [Descriptor.wf, Descriptor.lengthOk, Bool.and_eq_true, beq_iff_eq] at h
  exact h.2

theorem Form.wfIn_iff {T : OpTable} {f : Form} : f.wfIn T = true ↔
    (∃ d ∈ T, d.mnemonic = f.mnemonic ∧ d.mode = f.mode ∧ d.length = d.mode.length) ∧
      f.operands.length = f.mode.length - 1 := by
  simp [Form.wfIn, Descriptor.lengthOk, and_assoc]

/-! ### Encoding a form -/

/-- Everything an encoding says: the code of a row with the form's mnemonic and mode, then the operand bytes, as many as the
row's length asks for. -/
theorem encodeWith_some {T : OpTable} {f : Form} {bytes : List Byte} (h : encodeWith T f = some bytes) :
    ∃ d ∈ T, d.mnemonic = f.mnemonic ∧ d.mode = f.mode ∧ f.operands.length = d.length - 1 ∧
      bytes = d.code :: f.operands := by
  unfold encodeWith at h
  split at h
  next => cases h
  next d hd =>
    split at h
    next hl =>
      obtain ⟨hm, hmo⟩ : d.mnemonic = f.mnemonic ∧ d.mode = f.mode := by simpa using List.find?_some hd
      exact ⟨d, List.mem_of_find?_eq_some hd, hm, hmo, hl, (Option.some.inj h).symm⟩
    next => cases h

/-- The first row with a form's mnemonic and mode has the length of the mode, so the operand bytes of a form that has a row
fit it. -/
theorem encodeWith_of_wfIn {T : OpTable} {f : Form} (hT : T.wf = true) (hf : f.wfIn T = true) :
    ∃ bytes, encodeWith T f = some bytes ∧ bytes.length = f.mode.length := by
  obtain ⟨⟨d, hd, hm, hmo, -⟩, hl⟩ := Form.wfIn_iff.mp hf
  cases he : T.find? (fun d => d.mnemonic == f.mnemonic && d.mode == f.mode) with
  | none => exact absurd (List.find?_eq_none.mp he d hd) (by simp [hm, hmo])
  | some e =>
    have hmode : e.mode = f.mode := (by simpa using List.find?_some he : _ ∧ e.mode = f.mode).2
    have hlen : f.operands.length = e.length - 1 := by
      rw [OpTable.wf_length hT (List.mem_of_find?_eq_some he), hmode, hl]
    refine ⟨e.code :: f.operands, by simp [encodeWith, he, hlen], ?_⟩
    have := f.mode.length_pos
    simp only [List.length_cons]
    omega

/-! ### Decoding it again -/

/-- With distinct codes the encoding's first byte finds the row it was made from. -/
theorem decodeWith_encodeWith {T : OpTable} {f : Form} {bytes : List Byte} (hT : T.wf = true)
    (h : encodeWith T f = some bytes) (rest : List Byte) : decodeWith T (bytes ++ rest) = .ok (f, rest) := by
  obtain ⟨d, hd, hm, hmo, hl, rfl⟩ := encodeWith_some h
  rw [List.cons_append, decodeWith_cons (OpTable.lookup_of_mem (OpTable.wf_distinct hT) hd) hl, hm, hmo]

theorem Form.wfIn_of_decodeWith {T : OpTable} {f : Form} {bytes rest : List Byte} (hT : T.wf = true)
    (h : decodeWith T bytes = .ok (f, rest)) : f.wfIn T = true := by
  obtain ⟨b, d, hd, hm, hmo, hl, -⟩ := decodeWith_ok h
  have hlen := OpTable.wf_length hT (OpTable.lookup_mem hd)
  exact Form.wfIn_iff.mpr ⟨⟨d, OpTable.lookup_mem hd, hm.symm, hmo.symm, hlen⟩, by rw [hl, hlen, hmo]⟩

/-- Walking the concatenation of non-empty encodings gives back the list encoded, for any decoder of one element that gives
back an element from its encoding (R60). -/
theorem walk_flatten {α : Type} {one : List Byte → Except DecodeError (α × List Byte)} {enc : α → Option (List Byte)}
    (hone : ∀ a bytes rest, enc a = some bytes → one (bytes ++ rest) = .ok (a, rest))
    (hne : ∀ a, enc a ≠ some []) : ∀ (as : List α) (bs : List (List Byte)) (fuel : Nat),
      as.map enc = bs.map some → bs.flatten.length ≤ fuel → walk one fuel bs.flatten = .ok as
  | [], [], fuel, _, _ => by cases fuel <;> rfl
  | [], _ :: _, _, h, _ => by cases h
  | _ :: _, [], _, h, _ => by cases h
  | a :: as, bytes :: bs, fuel, h, hfuel => by
    obtain ⟨ha, has⟩ : enc a = some bytes ∧ as.map enc = bs.map some := by simpa using h
    cases bytes with
    | nil => exact absurd ha (hne a)
    | cons b l =>
      simp only [List.flatten_cons, List.cons_append, List.length_cons, List.length_append] at hfuel ⊢
      obtain ⟨k, rfl⟩ : ∃ k, fuel = k + 1 := ⟨fuel - 1, by omega⟩
      have hfirst : one (b :: (l ++ bs.flatten)) = .ok (a, bs.flatten) := hone a (b :: l) bs.flatten ha
      have hrest : walk one k bs.flatten = .ok as := walk_flatten hone hne as bs k has (by omega)
      simp only [walk, hfirst, hrest]

theorem decodeAllWith_flatten {T : OpTable} (hT : T.wf = true) {fs : List Form} {bs : List (List Byte)}
    (h : fs.map (encodeWith T) = bs.map some) : decodeAllWith T bs.flatten = .ok fs := by
  have hne : ∀ f, encodeWith T f ≠ some [] := fun f he => by
    obtain ⟨d, -, -, -, -, hb⟩ := encodeWith_some he
    cases hb
  exact walk_flatten (fun _ _ rest hf => decodeWith_encodeWith hT hf rest) hne fs bs _ h le_rfl

/-! ### The default table -/

/-- Row by row of R56, the first row with an instruction's mnemonic and mode has the instruction's opcode byte. -/
theorem Instr.encodeWith_form (i : Instr) : encodeWith Config.opTable i.form = some (encode i) := by
  cases i <;> rfl

theorem Instr.length_operands (i : Instr) : i.operands.length = i.mode.length - 1 := by
  cases i <;> rfl

theorem Instr.form_wfIn (i : Instr) : i.form.wfIn Config.opTable = true := by
  obtain ⟨d, hd, hm, hmo, -⟩ := i.lookup_opcode
  exact Form.wfIn_iff.mpr
    ⟨⟨d, OpTable.lookup_mem hd, hm, hmo, OpTable.wf_length opTable_wf (OpTable.lookup_mem hd)⟩, i.length_operands⟩

/-- An instruction is well formed against a table where its form is. -/
theorem Instr.wfIn_of_form {T : OpTable} {i : Instr} (h : i.form.wfIn T = true) : i.wfIn T = true :=
  (Bool.and_eq_true_iff.mp h).1

/-- Over any table, forms need no instruction. -/
theorem decodeWith_ne_unpaired (T : OpTable) (bytes : List Byte) (f : Form) : decodeWith T bytes ≠ .error (.unpaired f) := by
  unfold decodeWith
  split
  · nofun
  · split
    · nofun
    · split <;> nofun

/-- Each row of the default table assembles to an instruction, whatever its operand bytes. -/
theorem decode_ne_unpaired (bytes : List Byte) (f : Form) : decode bytes ≠ .error (.unpaired f) := by
  unfold decode
  cases hw : decodeWith Config.opTable bytes with
  | error e =>
    intro h
    exact decodeWith_ne_unpaired Config.opTable bytes f (hw.trans (congrArg _ (Except.error.inj h)))
  | ok r =>
    obtain ⟨g, rest⟩ := r
    obtain ⟨b, d, hd, hm, hmo, hl, -⟩ := decodeWith_ok hw
    obtain ⟨i, hi, -⟩ := assemble_opTable (OpTable.lookup_mem hd) hl
    simp [hm, hmo, hi]

/-- Settles O37: distinct codes make the opcode byte of an encoding find the row it was made from, and the length rule makes
the operand bytes fit. -/
theorem everyWellFormedTableDecodesItsEncodings : Obligations.EveryWellFormedTableDecodesItsEncodings := by
  refine ⟨fun T f bytes rest hT h => decodeWith_encodeWith hT h rest, fun T f hT h => encodeWith_of_wfIn hT h,
    fun T f bytes rest hT h => ⟨Form.wfIn_of_decodeWith hT h, ?_⟩, fun T fs bs hT h => decodeAllWith_flatten hT h,
    fun i => ⟨i.encodeWith_form, Instr.wfIn_of_form i.form_wfIn, i.form_wfIn⟩, decode_ne_unpaired⟩
  obtain ⟨b, d, hd, -, -, -, hb⟩ := decodeWith_ok h
  exact ⟨b, d, hd, hb⟩

end Sys2Proof
end

section
/-! Obligation O47: the phases Fetch, Dispatch and Execute, one at a time, make one pass. -/

namespace Sys2Proof.Machine

/-! ### Fetch, then Dispatch -/

/-- Everything Dispatch can do after Fetch: raise UnsupportedOpcode, or go on to Execute with the descriptor latched (R93). -/
theorem dispatch_fetch_cases (T : OpTable) (s : State) :
    ((∀ d, T.lookup (s.mem.read s.pc) = some d → d.mnemonic.wired = false) ∧
      dispatch T (fetch s) = .raise (.unsupportedOpcode (s.mem.read s.pc)) (faultedAt s)) ∨
    (∃ d, T.lookup (s.mem.read s.pc) = some d ∧ dispatch T (fetch s) = .next (atExecute s d)) := by
  cases hd : T.lookup (s.mem.read s.pc) with
  | none => exact .inl ⟨nofun, by simp [dispatch, hd, State.raise, fetch, faultedAt]⟩
  | some d =>
    cases hw : d.mnemonic.wired with
    | false =>
      exact .inl ⟨fun e he => Option.some.inj he ▸ hw, by simp [dispatch, hd, hw, State.raise, fetch, faultedAt]⟩
    | true => exact .inr ⟨d, rfl, by simp [dispatch, hd, hw, fetch, atExecute]⟩

/-- The first two phases are the same in every loop. What makes the three phases one pass is that the pass ends in
Dispatch's fault where Dispatch raises one, and otherwise as the third phase does. -/
theorem phases_make_pass {ph p : State → Pass} {T : OpTable} {s : State} (hfetch : ph s = .next (fetch s))
    (hdispatch : ph (fetch s) = dispatch T (fetch s))
    (hraise : (∀ d, T.lookup (s.mem.read s.pc) = some d → d.mnemonic.wired = false) →
      p s = .raise (.unsupportedOpcode (s.mem.read s.pc)) (faultedAt s))
    (hrun : ∀ d, T.lookup (s.mem.read s.pc) = some d → ph (atExecute s d) = p s) :
    ∃ u l, ph s = .next u ∧ u.loopState = .dispatch ∧ u.pc = s.pc + 1#16 ∧ u.latch = some l ∧
      l.opcode = s.mem.read s.pc ∧ l.pcAfterFetch = s.pc + 1#16 ∧ u.mem = s.mem ∧
      ((∃ f t, ph u = .raise f t ∧ p s = .raise f t) ∨
       (∃ v, ph u = .next v ∧ v.loopState = .execute ∧
          v = { u with loopState := v.loopState, latch := v.latch } ∧ ph v = p s)) := by
  refine ⟨fetch s, _, hfetch, rfl, rfl, rfl, rfl, rfl, rfl, ?_⟩
  rcases dispatch_fetch_cases T s with ⟨hw, hd⟩ | ⟨d, hl, hd⟩
  · exact .inl ⟨_, _, hdispatch.trans hd, hraise hw⟩
  · exact .inr ⟨atExecute s d, hdispatch.trans hd, rfl, rfl, hrun d hl⟩

/-! ### Execute over a table -/

/-- What a handler does when it runs with an instruction in progress, latched as l, from what it does with none. -/
def Handled.inProgress (l : Latch) : Handled → Handled
  | .done t => .done { t with loopState := .execute, latch := some l }
  | .halt t => .halt { t with latch := some l }
  | .raise f => .raise f
  | .noHandler => .noHandler

/-- The resolver looks at neither the loop state nor the latch (R82). -/
theorem resolve_atExecute (m : Mode) (s : State) (d : Descriptor) : resolve m (atExecute s d) = resolve m (afterFetch s) := by
  cases m <;> rfl

theorem withEa_atExecute (m : Mode) (s : State) (d : Descriptor) {l : Latch} {f g : Word → State}
    (h : ∀ ea, f ea = { g ea with loopState := .execute, latch := some l }) :
    withEa m (atExecute s d) f = (withEa m (afterFetch s) g).inProgress l := by
  unfold withEa
  rw [resolve_atExecute]
  cases resolve m (afterFetch s) with
  | ok ea => exact congrArg Handled.done (h ea)
  | error e => rfl

/-- No handler looks at the loop state or the latch. -/
theorem handle_atExecute (mn : Mnemonic) (m : Mode) (s : State) (d : Descriptor) :
    handle mn m (atExecute s d) = (handle mn m (afterFetch s)).inProgress ⟨s.pc + 1#16, s.mem.read s.pc, some d⟩ := by
  cases mn with
  | lda | and | sta => exact withEa_atExecute m s d fun _ => rfl
  | tax | inx | brk | unwired n => rfl

/-- Execute in a state with descriptor d latched ends as the pass does. -/
theorem executeTable_atExecute {T : OpTable} {s : State} {d : Descriptor} (hf : s.loopState = .fetch)
    (hd : T.lookup (s.mem.read s.pc) = some d) : executeTable (atExecute s d) = passTable T s := by
  have hex := handle_atExecute d.mnemonic d.mode s d
  rcases handle_cases d.mnemonic d.mode (afterFetch s) with
    ⟨-, -, h⟩ | ⟨t, h, -, -, hl, -⟩ | ⟨-, h⟩ | ⟨-, h⟩
  all_goals
    rw [h] at hex
    simp only [executeTable, passTable, State.atExecute_latch, hex, Handled.inProgress, hf, hd, h]
  · rfl
  · cases t
    cases hl
    rfl
  · rfl
  · rfl

/-- A byte with no descriptor, or with one that has no handler, over any table (R93, R170). -/
theorem passTable_unsupported {T : OpTable} {s : State} (hf : s.loopState = .fetch)
    (h : ∀ d, T.lookup (s.mem.read s.pc) = some d → d.mnemonic.wired = false) :
    passTable T s = .raise (.unsupportedOpcode (s.mem.read s.pc)) (faultedAt s) := by
  cases hd : T.lookup (s.mem.read s.pc) with
  | none => simp [passTable, hf, hd, afterFetch, faultedAt]
  | some d =>
    have hw := h d hd
    cases hm : d.mnemonic with
    | unwired n => simp [passTable, hf, hd, hm, handle, afterFetch, faultedAt]
    | _ => simp [hm, Mnemonic.wired] at hw

/-! ### Execute over the default table -/

/-- Every row of the default table has an instruction, so the hardware's Execute ends as its pass does. -/
theorem execute_atExecute {s : State} {d : Descriptor} (hf : s.loopState = .fetch)
    (hd : Config.opTable.lookup (s.mem.read s.pc) = some d) : execute (atExecute s d) = pass s := by
  obtain ⟨i, hi, -⟩ := instr_of_lookup hd
  rw [pass_runs hf hd hi]
  simp only [execute, State.atExecute_latch, State.atExecute_mem, State.atExecute_pc, hi]

/-- A byte of the default table whose descriptor no handler is wired for is a byte without a descriptor. -/
theorem pass_unwired {s : State} (hf : s.loopState = .fetch)
    (h : ∀ d, Config.opTable.lookup (s.mem.read s.pc) = some d → d.mnemonic.wired = false) :
    pass s = .raise (.unsupportedOpcode (s.mem.read s.pc)) (faultedAt s) := by
  cases hd : Config.opTable.lookup (s.mem.read s.pc) with
  | none => exact pass_unsupported hf hd
  | some d => exact absurd ((wired_of_lookup hd).symm.trans (h d hd)) nofun

/-- Settles O47, for the hardware's loop and for the loop over any table: Execute runs the handler where the pass runs it, but
for the loop state and the latch, which no handler reads. -/
theorem phasesMakeOnePass : Obligations.PhasesMakeOnePass := by
  rintro ph p s (⟨rfl, rfl⟩ | ⟨T, rfl, rfl⟩) hf
  · exact phases_make_pass (T := Config.opTable) (by simp only [phase, hf]) rfl (pass_unwired hf)
      fun _ hd => execute_atExecute hf hd
  · exact phases_make_pass (T := T) (by simp only [phaseTable, hf]) rfl (passTable_unsupported hf)
      fun _ hd => executeTable_atExecute hf hd

end Sys2Proof.Machine
end

section
/-! Obligations O26, O24 and O25: what an instruction writes, said once by its mnemonic. -/

namespace Sys2Proof.Machine

/-- The registers, flags and memory that an instruction with mnemonic mn, run in s, leaves in t. It speaks of A, X, Y, P and
memory only, so it is the same of two states that differ in pc, loop state or latch (R110, R119, R130, R140, R141, R145). -/
def Writes (mn : Mnemonic) (s t : State) : Prop :=
  match mn with
  | .lda | .and => t.P = setZN t.A s.P ∧ t.X = s.X ∧ t.Y = s.Y ∧ t.mem = s.mem
  | .tax | .inx => t.P = setZN t.X s.P ∧ t.A = s.A ∧ t.Y = s.Y ∧ t.mem = s.mem
  | .sta => t.P = s.P ∧ t.A = s.A ∧ t.X = s.X ∧ t.Y = s.Y ∧ ∃ ea, t.mem = s.mem.write ea s.A
  | .brk => t.P = s.P ∧ t.A = s.A ∧ t.X = s.X ∧ t.Y = s.Y ∧ t.mem = s.mem
  | .unwired _ => False

theorem exec_writes {i : Instr} {s t : State} (h : exec i s = .next t) : Writes i.mnemonic s t := by
  cases i <;> cases h
  case brk => exact ⟨rfl, rfl, rfl, rfl, rfl⟩
  case staIndX | staZp | staAbs | staIndY | staZpX | staAbsY | staAbsX => exact ⟨rfl, rfl, rfl, rfl, _, rfl⟩
  all_goals exact ⟨rfl, rfl, rfl, rfl⟩

/-- Everything a step that answers a next state has done: it ran the instruction of a descriptor, and went past it or halted
(R98). -/
theorem step_next_cases {s t : State} (h : step s = .next t) :
    ∃ d, Config.opTable.lookup (s.mem.read s.pc) = some d ∧ Writes d.mnemonic s t ∧ t.latch = none ∧
      (t.loopState = .fetch ∨ t.loopState = .halted) := by
  by_cases hf : s.loopState = .fetch
  · rcases pass_cases hf with ⟨-, hp⟩ | ⟨d, i, u, hd, -, -, -, hm, -, hu, -, -, hend⟩
    · rw [step, hp] at h
      cases h
    · have hw : Writes d.mnemonic (atExecute s d) u := hm ▸ exec_writes hu
      rcases hend with ⟨-, rfl, hp⟩ | ⟨-, -, hp⟩ <;> rw [step, hp] at h <;> cases h
      · exact ⟨d, hd, hw, rfl, .inr rfl⟩
      · exact ⟨d, hd, hw, rfl, .inl rfl⟩
  · rw [step, pass_not_fetch hf] at h
    cases h

/-- Whatever the mnemonic: Y is kept (R12), P changes through SetZN only (R16), memory in one cell at most (R199). -/
theorem Writes.frame {mn : Mnemonic} {s t : State} (h : Writes mn s t) :
    t.Y = s.Y ∧ (t.P = s.P ∨ ∃ r, t.P = setZN r s.P) ∧ (t.mem = s.mem ∨ ∃ ea, t.mem = s.mem.write ea s.A) := by
  cases mn with
  | lda | and | tax | inx =>
    obtain ⟨hP, -, hY, hmem⟩ := h
    exact ⟨hY, .inr ⟨_, hP⟩, .inl hmem⟩
  | sta =>
    obtain ⟨hP, -, -, hY, hmem⟩ := h
    exact ⟨hY, .inl hP, .inr hmem⟩
  | brk =>
    obtain ⟨hP, -, -, hY, hmem⟩ := h
    exact ⟨hY, .inl hP, .inl hmem⟩
  | unwired n => exact h.elim

theorem Writes.storageBits_eq {mn : Mnemonic} {s t : State} (h : Writes mn s t) : storageBits t.P = storageBits s.P := by
  obtain ⟨-, hP | ⟨r, hP⟩, -⟩ := h.frame <;> simp [hP]

/-! ### A program started by Reset -/

/-- With the storage bits zero, SetZN gives one of three bytes; Z and N are never both set (R16, R17). -/
theorem setZN_of_storageBits_zero {r p : Byte} (h : storageBits p = 0x00#8) :
    setZN r p = 0x00#8 ∨ setZN r p = 0x02#8 ∨ setZN r p = 0x80#8 := by
  have hN : r &&& 0x80#8 = if r.getLsbD 7 then 0x80#8 else 0x00#8 := BitVec.and_twoPow r 7
  by_cases hr : r = 0x00#8
  · exact .inr (.inl (by simp_all [setZN, storageBits]))
  · cases hb : r.getLsbD 7 <;> simp_all [setZN, storageBits]

theorem State.SinceReset.storageBits_zero {s : State} (h : s.SinceReset) : storageBits s.P = 0x00#8 := by
  obtain ⟨-, hP | hP | hP⟩ := h <;> rw [hP] <;> rfl

/-- Settles O26: no instruction writes Y, and SetZN, the one writer of P, keeps the storage bits zero. -/
theorem stepKeepsSinceReset : Obligations.StepKeepsSinceReset := by
  intro s t hs h
  obtain ⟨d, -, hw, -⟩ := step_next_cases h
  obtain ⟨hY, hP, -⟩ := hw.frame
  refine ⟨hY.trans hs.1, ?_⟩
  rcases hP with hP | ⟨r, hP⟩ <;> rw [hP]
  · exact hs.2
  · exact setZN_of_storageBits_zero hs.storageBits_zero

/-! ### Flags and registers after a step -/

theorem step_writes {s t : State} {d : Descriptor} (hd : Config.opTable.lookup (s.mem.read s.pc) = some d)
    (h : step s = .next t) : Writes d.mnemonic s t := by
  obtain ⟨e, he, hw, -⟩ := step_next_cases h
  rw [hd] at he
  exact Option.some.inj he ▸ hw

/-- Settles O24: P is SetZN of the byte written, and STA and BRK write none. -/
theorem flagsFollowTheResult : Obligations.FlagsFollowTheResult := by
  intro s t d hd h
  have hw := step_writes hd h
  refine ⟨?_, ?_, ?_⟩ <;> rintro (hm | hm) <;> rw [hm] at hw <;> simp [hw.1]

/-- Settles O25, by the mnemonic. -/
theorem registerReachability : Obligations.RegisterReachability := by
  intro s t d hd h
  have hw := step_writes hd h
  refine ⟨hw.frame.1, hw.storageBits_eq, ?_⟩
  generalize d.mnemonic = mn at hw
  cases mn with
  | lda | and =>
    obtain ⟨-, hX, -, hmem⟩ := hw
    simp [hX, hmem]
  | tax | inx =>
    obtain ⟨-, hA, -, hmem⟩ := hw
    simp [hA, hmem]
  | sta =>
    obtain ⟨-, hA, hX, -⟩ := hw
    simp [hA, hX]
  | brk =>
    obtain ⟨-, hA, hX, -, hmem⟩ := hw
    simp [hA, hX, hmem]
  | unwired n => exact hw.elim

end Sys2Proof.Machine
end

section
/-! Obligations O27 and O29: the invariant of the states between instructions. -/

namespace Sys2Proof.Machine

theorem Memory.wf_of_eq_or_write {m n : Memory} {v : Byte} (hm : m.wf = true) (h : n = m ∨ ∃ a, n = m.write a v) :
    n.wf = true := by
  rcases h with rfl | ⟨a, rfl⟩
  · exact hm
  · exact Memory.wf_write hm a v

theorem State.Inv.faultedAt {s : State} (hs : s.Inv) : (faultedAt s).Inv := ⟨hs.1, rfl, .inr (.inr rfl)⟩

/-- A pass that faults has left what Fetch made of the state (R93, R177). -/
theorem pass_raise_eq {s t : State} {f : Fault} (h : pass s = .raise f t) : t = faultedAt s := by
  by_cases hf : s.loopState = .fetch
  · rcases pass_cases hf with ⟨-, hp⟩ | ⟨d, i, u, -, -, -, -, -, -, -, -, -, ⟨-, -, hp⟩ | ⟨-, -, hp⟩⟩ <;>
      rw [hp] at h <;> cases h
    rfl
  · rw [pass_not_fetch hf] at h
    cases h

/-- Settles O27: a step writes memory in one cell at most, and a fault writes none. -/
theorem stepKeepsInvariant : Obligations.StepKeepsInvariant := by
  intro s hs
  constructor
  · intro t h
    obtain ⟨d, -, hw, hl, hloop⟩ := step_next_cases h
    obtain ⟨-, -, hmem⟩ := hw.frame
    exact ⟨Memory.wf_of_eq_or_write hs.1 hmem, hl, hloop.imp_right .inl⟩
  · intro f t h
    obtain rfl := pass_raise_eq h
    exact hs.faultedAt

/-! ### A Run over any table -/

/-- Whatever a pass over a table ends in, the state it leaves has the invariant. -/
theorem passTable_keeps_inv {T : OpTable} {s t : State} (hs : s.Inv)
    (h : passTable T s = .next t ∨ passTable T s = .halt t ∨ ∃ f, passTable T s = .raise f t) : t.Inv := by
  rcases h with hp | hp | ⟨f, hp⟩
  · have hf : s.loopState = .fetch := fetch_of_pass (T := T) (by rw [hp]; nofun)
    rcases passTable_cases T hf with ⟨h, -⟩ | ⟨h, -⟩ | ⟨d, -, -, h⟩ | ⟨d, u, -, hu, h⟩ <;> rw [h] at hp <;> cases hp
    rcases handle_cases d.mnemonic d.mode (afterFetch s) with
      ⟨-, -, h⟩ | ⟨v, h, -, -, hl, -, hm, -⟩ | ⟨-, h⟩ | ⟨-, h⟩ <;> rw [hu] at h <;> cases h
    exact ⟨Memory.wf_of_eq_or_write hs.1 hm, hl, .inl rfl⟩
  · obtain ⟨d, -, -, rfl⟩ := pass_halted hp
    exact ⟨hs.1, rfl, .inr (.inl rfl)⟩
  · obtain ⟨rfl, -⟩ := pass_faulted hp
    exact hs.faultedAt

theorem Context.runFrom_keeps_inv (T : OpTable) : ∀ (n : Nat) (c : Context), c.state.Inv →
    (Context.runFrom T n c).2.state.Inv
  | 0, _, hc => hc
  | n + 1, c, hc => by
    rw [Context.runFrom]
    cases c.missing T with
    | some r => exact hc
    | none =>
      cases hp : passTable T c.state with
      | next t => exact Context.runFrom_keeps_inv T n _ (passTable_keeps_inv hc (.inl hp))
      | halt t => exact passTable_keeps_inv hc (.inr (.inl hp))
      | raise f t => exact passTable_keeps_inv hc (.inr (.inr ⟨f, hp⟩))
      | refused r => exact hc

/-! ### The host operations -/

theorem State.Inv.beginRun {s : State} (hs : s.Inv) : s.beginRun.Inv := ⟨hs.1, rfl, .inl rfl⟩

theorem State.Inv.hostReset {s : State} (hs : s.Inv) : s.hostReset.Inv := ⟨hs.1, rfl, .inl rfl⟩

theorem State.Inv.writeByte {s : State} (hs : s.Inv) (a : Nat) (v : Byte) : (s.writeByte a v).Inv :=
  ⟨Memory.wf_write hs.1 _ _, hs.2⟩

theorem State.Inv.writeWordAt {s : State} (hs : s.Inv) (a : Nat) (w : Word) : (s.writeWordAt a w).Inv :=
  ⟨Memory.wf_writeWord hs.1 _ _, hs.2⟩

theorem State.Inv.writeReg {s : State} (hs : s.Inv) (v : RegVal) : (s.writeReg v).Inv := by
  cases v <;> exact hs

/-- The state Load leaves when the program fits (R150). -/
def State.loaded (s : State) (bytes : List Byte) : State :=
  { s with
    mem := (s.mem.writeBytes Config.loadBase bytes).writeWord Config.resetVector Config.loadBase
    pc := Config.loadBase
    loopState := .fetch
    latch := none }

theorem State.load_too_long {bytes : List Byte} (h : bytes.length > 0x8000) (s : State) :
    s.load bytes = .error .outOfBoundsLoad := if_pos h

theorem State.load_fits {bytes : List Byte} (h : bytes.length ≤ 0x8000) (s : State) :
    s.load bytes = .ok (s.loaded bytes) := if_neg (Nat.not_lt.mpr h)

/-- The context Load leaves when the program fits (R25, R150). -/
def Context.loaded (c : Context) (bytes : List Byte) : Context :=
  { c with state := c.state.loaded bytes, valued := c.valued.give .pc }

theorem Context.load_too_long {bytes : List Byte} (h : bytes.length > 0x8000) (c : Context) :
    c.load bytes = .error .outOfBoundsLoad := by rw [Context.load, State.load_too_long h]

theorem Context.load_fits {bytes : List Byte} (h : bytes.length ≤ 0x8000) (c : Context) :
    c.load bytes = .ok (c.loaded bytes) := by
  rw [Context.load, State.load_fits h]
  rfl

theorem State.Inv.loaded {s : State} (hs : s.Inv) (bytes : List Byte) : (s.loaded bytes).Inv :=
  ⟨Memory.wf_writeWord (Memory.wf_writeBytes bytes Config.loadBase hs.1) Config.resetVector Config.loadBase, rfl, .inl rfl⟩

theorem Context.run_keeps_inv (T : OpTable) (n : Nat) {c : Context} (hc : c.state.Inv) : (c.run T n).2.state.Inv := by
  unfold Context.run
  split
  · exact hc
  · exact Context.runFrom_keeps_inv T n _ hc.beginRun

theorem Context.goOn_keeps_inv (T : OpTable) (n : Nat) {c : Context} (hc : c.state.Inv) : (c.goOn T n).2.state.Inv := by
  unfold Context.goOn
  split
  · exact Context.runFrom_keeps_inv T n c hc
  · exact hc

theorem Context.perform_keeps_inv (T : OpTable) (n : Nat) {c : Context} (hc : c.state.Inv) (op : HostOp) :
    (c.perform T n op).2.state.Inv := by
  cases op with
  | load bytes =>
    rw [Context.perform]
    rcases Nat.lt_or_ge 0x8000 bytes.length with hb | hb
    · rw [Context.load_too_long hb]
      exact hc
    · rw [Context.load_fits hb]
      exact hc.loaded bytes
  | reset => exact hc.hostReset
  | run => exact Context.run_keeps_inv T n hc
  | loadAndRun bytes =>
    rw [Context.perform]
    rcases Nat.lt_or_ge 0x8000 bytes.length with hb | hb
    · rw [Context.load_too_long hb]
      exact hc
    · rw [Context.load_fits hb]
      exact Context.run_keeps_inv T n (c := (c.loaded bytes).reset) (hc.loaded bytes).hostReset
  | readByte a => exact hc
  | writeByte a v => exact hc.writeByte a v
  | readWord a => exact hc
  | writeWord a w => exact hc.writeWordAt a w
  | readReg r => rw [Context.perform]; split <;> exact hc
  | writeReg v => exact hc.writeReg v

theorem Context.call_keeps_inv (T : OpTable) (n : Nat) {c : Context} (hc : c.state.Inv) (op : HostOp) :
    (c.call T n op).2.state.Inv := by
  unfold Context.call
  split
  · exact hc
  · exact Context.perform_keeps_inv T n hc op

/-- Settles O29: a Run keeps the invariant by induction on the instructions it is followed for, every other operation by what it
writes. -/
theorem hostOperationsKeepInvariant : Obligations.HostOperationsKeepInvariant :=
  ⟨fun _ hm => ⟨hm, rfl, .inl rfl⟩, fun T n _ op hc => ⟨Context.call_keeps_inv T n hc op, Context.goOn_keeps_inv T n hc⟩⟩

end Sys2Proof.Machine
end

section
/-! Obligations O23, O28, O49 and O56: SetZN, and what Reset gives. -/

namespace Sys2Proof.Machine

/-- Settles O23, from what SetZN does to each bit. -/
theorem setZNWritesExactlyTwoBits : Obligations.SetZNWritesExactlyTwoBits := by
  intro r p
  refine ⟨by rw [← flagZ, flagZ_setZN, decide_eq_true_iff], flagN_setZN r p, fun i hi => ?_⟩
  obtain ⟨h8, h1, h7⟩ : i < 8 ∧ i ≠ 1 ∧ i ≠ 7 := by
    simp only [List.mem_cons, List.not_mem_nil, or_false] at hi
    omega
  rw [setZN_getLsbD r p i h8, if_neg h1, if_neg h7]

/-! ### Reset -/

theorem State.hostReset_sinceReset (s : State) : s.hostReset.SinceReset := ⟨rfl, .inl rfl⟩

/-- Settles O28: Reset of an empty image is `State.reset`, whose pc is the vector of unlisted cells. -/
theorem invariantsHoldAtReset : Obligations.InvariantsHoldAtReset :=
  ⟨⟨Memory.wf_nil, rfl, .inl rfl⟩, rfl, rfl, rfl, ⟨rfl, .inl rfl⟩,
    fun s => ⟨rfl, rfl, rfl, s.hostReset_sinceReset⟩, State.reset_eq_hostReset, rfl⟩

/-- Settles O49: the reset vector's word is low byte plus 256 times high byte. -/
theorem resetValues : Obligations.ResetValues := fun _ =>
  ⟨rfl, rfl, rfl, rfl, cat_toNat _ _, rfl, rfl⟩

/-! ### Registers without a value -/

theorem Valued.nothing_has (r : Reg) : Valued.nothing.has r = false := by cases r <;> rfl

theorem Valued.everything_has (r : Reg) : Valued.everything.has r = true := by cases r <;> rfl

/-- Where no Run is in progress the host operation is performed (R159). -/
theorem Context.call_eq_perform {c : Context} (h : c.runInProgress = false) (T : OpTable) (n : Nat) (op : HostOp) :
    c.call T n op = c.perform T n op := by
  rw [Context.call, h]
  rfl

theorem Context.call_readReg_valueless {c : Context} (h : c.runInProgress = false) {r : Reg} (hr : c.valued.has r = false)
    (T : OpTable) (n : Nat) : c.call T n (.readReg r) = (.refused (.valueless r), c) := by
  rw [Context.call_eq_perform h, Context.perform, hr]
  rfl

/-- Once every register holds a value, ReadReg replies with it (R158). -/
theorem Context.call_readReg_everything {c : Context} (h : c.runInProgress = false) (hv : c.valued = Valued.everything)
    (T : OpTable) (n : Nat) (r : Reg) : c.call T n (.readReg r) = (.reg (c.state.readReg r), c) := by
  rw [Context.call_eq_perform h, Context.perform, hv, Valued.everything_has]
  rfl

/-- Run is refused while pc has no value, and changes nothing (R154). -/
theorem Context.call_run_valueless {c : Context} (h : c.runInProgress = false) (hpc : c.valued.pc = false) (T : OpTable)
    (n : Nat) : c.call T n .run = (.ran (.refused (.valueless .pc)), c) := by
  rw [Context.call_eq_perform h, Context.perform, Context.run, hpc]
  rfl

theorem Context.call_readByte {c : Context} (h : c.runInProgress = false) (T : OpTable) (n a : Nat) :
    c.call T n (.readByte a) = (.byte (c.state.readByte a), c) := by
  rw [Context.call_eq_perform h, Context.perform]

theorem Context.call_reset {c : Context} (h : c.runInProgress = false) (T : OpTable) (n : Nat) :
    c.call T n .reset = (.ok, c.reset) := by
  rw [Context.call_eq_perform h, Context.perform]

/-- Settles O56: creation gives no register a value, Reset gives every register one and writes no memory. -/
theorem valuelessRegistersAreRefused : Obligations.ValuelessRegistersAreRefused := by
  refine ⟨fun T mem0 r n => ⟨Context.call_readReg_valueless rfl (Valued.nothing_has r) T n,
    Context.call_run_valueless rfl rfl T n⟩, fun T n c c' h hc' => ?_⟩
  obtain rfl : c' = c.reset := by rw [hc', Context.call_reset h]
  have hread := Context.call_readReg_everything (c := c.reset) h rfl T n
  have hbyte : ∀ a, (c.reset.call T n (.readByte a)).1 = (c.call T n (.readByte a)).1 := fun a => by
    rw [Context.call_readByte h, Context.call_readByte (c := c.reset) h]
    rfl
  refine ⟨by rw [Context.call_reset h], rfl, rfl, h, rfl, rfl, hbyte, ?_⟩
  simp only [hread]
  exact ⟨rfl, rfl, rfl, rfl, rfl⟩

end Sys2Proof.Machine
end

section
/-! Obligation O57: once every register holds a value, Run on a context is Run on its state. -/

namespace Sys2Proof.Machine

/-- The loop on a context all of whose registers hold values misses none, so it goes as the loop on the state, and its mark
says whether it has ended. -/
theorem Context.runFrom_everything (T : OpTable) : ∀ (n : Nat) (s : State) (b : Bool),
    Context.runFrom T n ⟨s, Valued.everything, b⟩ =
      ((Machine.runFrom T n s).1,
        ⟨(Machine.runFrom T n s).2, Valued.everything, decide ((Machine.runFrom T n s).1 = .running)⟩)
  | 0, _, _ => rfl
  | n + 1, s, b => by
    rw [Context.runFrom, Context.missing_everything, Context.valuedAfter_everything, Machine.runFrom]
    simp only
    cases passTable T s with
    | next t => exact Context.runFrom_everything T n t b
    | halt t => rfl
    | raise f t => rfl
    | refused r => rfl

theorem Context.run_everything {c : Context} (hv : c.valued = Valued.everything) (T : OpTable) (n : Nat) :
    c.run T n =
      ((c.state.run T n).1, ⟨(c.state.run T n).2, Valued.everything, decide ((c.state.run T n).1 = .running)⟩) := by
  obtain ⟨s, v, b⟩ := c
  obtain rfl : v = Valued.everything := hv
  exact Context.runFrom_everything T n s.beginRun b

/-- Settles O57: LoadAndRun resets before it runs, so its Run misses no register either. -/
theorem contextRunIsRunWhenAllHaveValues : Obligations.ContextRunIsRunWhenAllHaveValues := by
  intro T c n h
  refine ⟨fun hv => ?_, fun bytes hb => ?_, fun bytes hb => ?_⟩
  · rw [Context.call_eq_perform h, Context.perform, Context.run_everything hv]
  · rw [Context.call_eq_perform h, Context.perform, Context.load_too_long hb]
  · have hrun := Context.run_everything (c := (c.loaded bytes).reset) rfl T n
    rw [Context.call_eq_perform h, Context.perform, Context.load_fits hb, State.loadAndRun, State.load_fits hb]
    simp only [hrun]
    rfl

end Sys2Proof.Machine
end

section
/-! Obligation O59: a Run on a context instruction by instruction, where some registers hold no value. -/

namespace Sys2Proof.Machine

/-! ### What an instruction reads -/

/-- An instruction that resolves reads its mode's registers as well, unless the mode is None; then it reads none. -/
theorem mem_descriptorReads {d : Descriptor} {r : Reg} :
    r ∈ descriptorReads d ↔ (r ∈ handlerReads d.mnemonic ∧ (d.mnemonic.resolves = true → d.mode ≠ .none)) ∨
      (d.mnemonic.resolves = true ∧ r ∈ modeReads d.mode) := by
  unfold descriptorReads
  cases d.mnemonic.resolves <;> by_cases hm : d.mode = .none <;> simp [hm, modeReads]

theorem mem_handlerReads {mn : Mnemonic} {r : Reg} :
    r ∈ handlerReads mn ↔ (r = .A ∧ (mn = .tax ∨ mn = .and ∨ mn = .sta)) ∨ (r = .X ∧ mn = .inx) := by
  cases mn <;> simp [handlerReads]

theorem mem_modeReads {m : Mode} {r : Reg} :
    r ∈ modeReads m ↔ (r = .X ∧ (m = .zeroPageX ∨ m = .absoluteX ∨ m = .indirectX)) ∨
      (r = .Y ∧ (m = .zeroPageY ∨ m = .absoluteY ∨ m = .indirectY)) := by
  cases m <;> simp [modeReads]

theorem Mnemonic.resolves_iff {mn : Mnemonic} : mn.resolves = true ↔ mn = .lda ∨ mn = .and ∨ mn = .sta := by
  cases mn <;> simp [Mnemonic.resolves]

theorem mem_handlerWrites {mn : Mnemonic} {r : Reg} :
    r ∈ handlerWrites mn ↔ (r = .A ∧ (mn = .lda ∨ mn = .and)) ∨ (r = .X ∧ (mn = .tax ∨ mn = .inx)) := by
  cases mn <;> simp [handlerWrites]

theorem descriptorReads_brk {d : Descriptor} (h : d.mnemonic = .brk) : descriptorReads d = [] := by
  simp [descriptorReads, h, Mnemonic.resolves, handlerReads]

theorem descriptorReads_unwired {d : Descriptor} (h : d.mnemonic.wired = false) : descriptorReads d = [] := by
  cases hm : d.mnemonic <;> simp_all [descriptorReads, Mnemonic.wired, Mnemonic.resolves, handlerReads]

theorem descriptorReads_resolves_none {d : Descriptor} (h : d.mnemonic.resolves = true) (hm : d.mode = .none) :
    descriptorReads d = [] := by
  simp [descriptorReads, h, hm]

/-- The registers each instruction reads, register by register (R110, R119, R130, R140, R141, R145). -/
theorem descriptorReads_spec (d : Descriptor) :
    (.A ∈ descriptorReads d ↔ d.mnemonic = .tax ∨ ((d.mnemonic = .and ∨ d.mnemonic = .sta) ∧ d.mode ≠ .none)) ∧
    (.X ∈ descriptorReads d ↔ d.mnemonic = .inx ∨ ((d.mnemonic = .lda ∨ d.mnemonic = .and ∨ d.mnemonic = .sta) ∧
      (d.mode = .zeroPageX ∨ d.mode = .absoluteX ∨ d.mode = .indirectX))) ∧
    (.Y ∈ descriptorReads d ↔ (d.mnemonic = .lda ∨ d.mnemonic = .and ∨ d.mnemonic = .sta) ∧
      (d.mode = .zeroPageY ∨ d.mode = .absoluteY ∨ d.mode = .indirectY)) ∧
    .P ∉ descriptorReads d ∧ .pc ∉ descriptorReads d := by
  simp only [mem_descriptorReads, mem_handlerReads, mem_modeReads]
  refine ⟨?_, ?_, ?_, by simp, by simp⟩ <;> cases d.mnemonic <;> simp [Mnemonic.resolves]

/-! ### The loop at one instruction -/

/-- Where each register the instruction at pc reads holds a value, none is missing (R25). -/
theorem Context.missing_eq_none {T : OpTable} {c : Context} (hpc : c.valued.pc = true)
    (h : ∀ d, T.lookup (c.state.mem.read c.state.pc) = some d → ∀ r, r ∈ descriptorReads d → c.valued.has r = true) :
    c.missing T = none := by
  rcases c.missing_cases T hpc with ⟨r, d, -, hd, hr, hv⟩ | ⟨hm, -⟩
  · rw [h d hd r hr] at hv
    cases hv
  · exact hm

theorem Context.runFrom_missing {T : OpTable} {c : Context} {r : Reg} (hm : c.missing T = some r) (n : Nat) :
    Context.runFrom T (n + 1) c = (.refused (.valueless r), { c with runInProgress := false }) := by
  rw [Context.runFrom, hm]

theorem Context.runFrom_next {T : OpTable} {c : Context} {t : State} (hm : c.missing T = none)
    (hp : passTable T c.state = .next t) (n : Nat) :
    Context.runFrom T (n + 1) c = Context.runFrom T n ⟨t, c.valuedAfter T, true⟩ := by
  rw [Context.runFrom, hm, hp]
  exact Context.runFrom_mark T n ⟨t, c.valuedAfter T, true⟩ c.runInProgress

/-- BRK writes no register, so a halt leaves the registers that hold a value as they were (R145). -/
theorem Context.runFrom_halt {T : OpTable} {c : Context} {t : State} (hm : c.missing T = none)
    (hp : passTable T c.state = .halt t) (n : Nat) : Context.runFrom T (n + 1) c = (.halted, ⟨t, c.valued, false⟩) := by
  obtain ⟨d, hd, hbrk, -⟩ := pass_halted hp
  have hv : c.valuedAfter T = c.valued := by
    rw [Context.valuedAfter, State.descriptorAtPc, hd]
    simp [hbrk, handlerWrites]
  rw [Context.runFrom, hm, hp, hv]

theorem Context.runFrom_raise {T : OpTable} {c : Context} {f : Fault} {t : State} (hm : c.missing T = none)
    (hp : passTable T c.state = .raise f t) (n : Nat) :
    Context.runFrom T (n + 1) c = (.fault f, ⟨t, c.valued, false⟩) := by
  rw [Context.runFrom, hm, hp]

theorem Context.missing_eq_none_of_reads_nil {T : OpTable} {c : Context} {d : Descriptor} (hpc : c.valued.pc = true)
    (hd : T.lookup (c.state.mem.read c.state.pc) = some d) (h : descriptorReads d = []) : c.missing T = none :=
  Context.missing_eq_none hpc fun e he r hr => by
    obtain rfl : d = e := Option.some.inj (hd.symm.trans he)
    rw [h] at hr
    cases hr

/-- A byte with no descriptor, or with one that has no handler, faults whatever registers hold a value (R170). -/
theorem Context.runFrom_unsupported {T : OpTable} {c : Context} (hpc : c.valued.pc = true)
    (hf : c.state.loopState = .fetch)
    (h : ∀ d, T.lookup (c.state.mem.read c.state.pc) = some d → d.mnemonic.wired = false) (n : Nat) :
    Context.runFrom T (n + 1) c =
      (.fault (.unsupportedOpcode (c.state.mem.read c.state.pc)), ⟨faultedAt c.state, c.valued, false⟩) := by
  have hm : c.missing T = none := Context.missing_eq_none hpc fun d hd r hr => by
    rw [descriptorReads_unwired (h d hd)] at hr
    cases hr
  exact Context.runFrom_raise hm (passTable_unsupported hf h) n

theorem passTable_brk {T : OpTable} {s : State} {d : Descriptor} (hf : s.loopState = .fetch)
    (hd : T.lookup (s.mem.read s.pc) = some d) (hm : d.mnemonic = .brk) :
    passTable T s = .halt { s with pc := s.pc + 1#16, loopState := .halted, latch := none } := by
  simp [passTable, hf, hd, hm, handle, afterFetch, State.halt]

/-- A handler that resolves mode None raises InvalidAddressingUse in the state after Fetch (R80, R171). -/
theorem passTable_resolves_none {T : OpTable} {s : State} {d : Descriptor} (hf : s.loopState = .fetch)
    (hd : T.lookup (s.mem.read s.pc) = some d) (hr : d.mnemonic.resolves = true) (hm : d.mode = .none) :
    passTable T s = .raise .invalidAddressingUse (faultedAt s) := by
  cases hmn : d.mnemonic <;> simp [hmn, Mnemonic.resolves] at hr <;>
    simp [passTable, hf, hd, hmn, hm, handle, withEa, resolve, afterFetch, faultedAt]

/-! ### The loop followed for any number of instructions -/

theorem passTable_ne_refused {T : OpTable} {s : State} (hf : s.loopState = .fetch) (r : Refusal) :
    passTable T s ≠ .refused r := by
  rcases passTable_cases T hf with ⟨hp, -⟩ | ⟨hp, -⟩ | ⟨_, _, _, hp⟩ | ⟨_, _, _, _, hp⟩ <;> rw [hp] <;> nofun

/-- However long the loop is followed, it goes by passes to a state from which it is followed no further, or whose instruction
reads a register without a value and is refused, or whose pass halts or faults. -/
theorem Context.runFrom_goes_to (T : OpTable) : ∀ (n : Nat) (c : Context), c.valued.pc = true →
    c.state.loopState = .fetch → ∃ u v, Steps T c.state u ∧ v.pc = true ∧ u.loopState = .fetch ∧
      (Context.runFrom T n c = (.running, ⟨u, v, true⟩) ∨
       (∃ d r, T.lookup (u.mem.read u.pc) = some d ∧ r ∈ descriptorReads d ∧ v.has r = false ∧
          Context.runFrom T n c = (.refused (.valueless r), ⟨u, v, false⟩)) ∨
       (∃ c', Context.runFrom T n c = (.halted, c')) ∨ ∃ f c', Context.runFrom T n c = (.fault f, c'))
  | 0, c, hpc, hf => ⟨c.state, c.valued, .refl _, hpc, hf, .inl rfl⟩
  | n + 1, c, hpc, hf => by
    rcases c.missing_cases T hpc with ⟨r, d, hm, hd, hr, hv⟩ | ⟨hm, -⟩
    · exact ⟨c.state, c.valued, .refl _, hpc, hf, .inr (.inl ⟨d, r, hd, hr, hv, Context.runFrom_missing hm n⟩)⟩
    · cases hp : passTable T c.state with
      | next t =>
        obtain ⟨u, v, hs, hend⟩ := Context.runFrom_goes_to T n ⟨t, c.valuedAfter T, true⟩
          ((c.valuedAfter_pc T).trans hpc) (pass_next_fetch hp)
        rw [Context.runFrom_next hm hp]
        exact ⟨u, v, (Steps.tail (.refl _) hp).trans hs, hend⟩
      | halt t => exact ⟨c.state, c.valued, .refl _, hpc, hf, .inr (.inr (.inl ⟨_, Context.runFrom_halt hm hp n⟩))⟩
      | raise f t =>
        exact ⟨c.state, c.valued, .refl _, hpc, hf, .inr (.inr (.inr ⟨f, _, Context.runFrom_raise hm hp n⟩))⟩
      | refused r => exact absurd hp (passTable_ne_refused hf r)

/-! ### The host operation Run -/

theorem Context.call_run {c : Context} (h : c.runInProgress = false) (hpc : c.valued.pc = true) (T : OpTable) (n : Nat) :
    c.call T n .run =
      (.ran (Context.runFrom T n { c with state := c.state.beginRun }).1,
        (Context.runFrom T n { c with state := c.state.beginRun }).2) := by
  rw [Context.call_eq_perform h, Context.perform, Context.run, hpc]
  rfl

theorem Context.goOn_inProgress {c : Context} (h : c.runInProgress = true) (T : OpTable) (n : Nat) :
    c.goOn T n = (some (Context.runFrom T n c).1, (Context.runFrom T n c).2) := if_pos h

/-- Settles O59: what an instruction reads, register by register; the loop at one instruction; and the loop followed further,
by induction on the instructions. -/
theorem runStopsBeforeReadingAValuelessRegister : Obligations.RunStopsBeforeReadingAValuelessRegister := by
  refine ⟨descriptorReads_spec, fun T n c => ⟨fun h hpc => Context.call_run_valueless h hpc T n, ?_, ?_⟩, ?_, ?_⟩
  · intro h hpc r c' hrun
    rw [Context.call_run h hpc, hrun]
  · intro h r c' hrun
    rw [Context.goOn_inProgress h, hrun]
  · rintro T n c _ _ hpc hf rfl rfl
    refine ⟨fun hd => Context.runFrom_unsupported hpc hf (by rw [hd]; nofun) n, fun d hd => ?_⟩
    have hlookup : ∀ e, T.lookup (c.state.mem.read c.state.pc) = some e → e = d := fun e he =>
      (Option.some.inj (hd.symm.trans he)).symm
    refine ⟨?_, fun hall => ?_, fun hm => ?_, fun hw => ?_, fun hm hmode => ?_⟩
    · rintro ⟨r, hr, hv⟩
      rcases c.missing_cases T hpc with ⟨q, e, hm, he, hq, hqv⟩ | ⟨-, hall⟩
      · exact ⟨q, hlookup e he ▸ hq, hqv, Context.runFrom_missing hm n⟩
      · exact absurd (hall d hd r hr) (by simp [hv])
    · have hnone : c.missing T = none := Context.missing_eq_none hpc fun e he => hlookup e he ▸ hall
      refine ⟨fun t hp => ⟨_, Context.runFrom_next hnone hp n, fun r => ?_⟩, fun t hp => Context.runFrom_halt hnone hp n,
        fun f t hp => Context.runFrom_raise hnone hp n⟩
      rw [Context.valuedAfter_has hd, mem_handlerWrites]
    · exact Context.runFrom_halt (Context.missing_eq_none_of_reads_nil hpc hd (descriptorReads_brk hm))
        (passTable_brk hf hd hm) n
    · exact Context.runFrom_unsupported hpc hf (fun e he => hlookup e he ▸ hw) n
    · have hr := Mnemonic.resolves_iff.mpr hm
      exact Context.runFrom_raise (Context.missing_eq_none_of_reads_nil hpc hd (descriptorReads_resolves_none hr hmode))
        (passTable_resolves_none hf hd hr hmode) n
  · intro T n c c' hpc hf
    obtain ⟨u, v, hs, hv, hu, hend⟩ := Context.runFrom_goes_to T n c hpc hf
    rcases hend with h | ⟨d, r, hd, hr, hvr, h⟩ | ⟨e, h⟩ | ⟨f, e, h⟩ <;> rw [h]
    · exact ⟨nofun, by rintro ⟨⟩; exact ⟨hs, rfl, hv, hu⟩⟩
    · exact ⟨by rintro q ⟨⟩; exact ⟨hs, d, r, hd, hr, hvr, rfl⟩, nofun⟩
    · exact ⟨nofun, nofun⟩
    · exact ⟨nofun, nofun⟩

end Sys2Proof.Machine
end

section
/-! Obligations O46, O44 and O45: the memory accesses of a pass, what they read and what they write. -/

namespace Sys2Proof.Machine

/-! ### The pass of the hardware is the pass over the default table -/

theorem eq_brk_iff_mnemonic {i : Instr} : i = .brk ↔ i.mnemonic = .brk := by
  cases i <;> simp [Instr.mnemonic]

/-- With the default table, the handler of a descriptor's mnemonic and mode does what the instruction assembled from the
descriptor does; what precedes and follows it is the same (R100). -/
theorem pass_eq_passTable (s : State) : pass s = passTable Config.opTable s := by
  by_cases hf : s.loopState = .fetch
  · rcases pass_cases hf with ⟨hd, hp⟩ | ⟨d, i, t, hd, -, -, hops, hm, hmo, ht, hpc, hl, hend⟩
    · rw [hp, passTable_unsupported hf (by rw [hd]; nofun)]
    · have hbytes : (atExecute s d).mem.readBytes (atExecute s d).pc i.operands.length = i.operands := by
        rw [hops, Memory.readBytes_length]
        rfl
      obtain ⟨u, hu, hhandle⟩ := handle_eq_exec i (atExecute s d) hbytes
      obtain rfl : t = u := Host.Outcome.next.inj (ht.symm.trans hu)
      rw [← executeTable_atExecute hf hd]
      simp only [executeTable, State.atExecute_latch, ← hm, ← hmo, hhandle]
      rcases hend with ⟨hb, -, hp⟩ | ⟨hb, -, hp⟩
      · rw [hp, if_pos (eq_brk_iff_mnemonic.mp hb)]
      · rw [hp, if_neg (mt eq_brk_iff_mnemonic.mpr hb), ← advance_of_pc hpc hl]
  · rw [pass_not_fetch hf, passTable_not_fetch _ hf]

/-! ### The accesses of a handler -/

/-- The resolver fails for mode None and for no other (R80). -/
theorem resolve_cases (m : Mode) (s : State) :
    (m = .none ∧ resolve m s = .error .invalidAddressingUse) ∨ (m ≠ .none ∧ ∃ ea, resolve m s = .ok ea) := by
  cases m <;> simp [resolve]

/-- The data access of a handler that resolved its mode to ea: STA writes A there, the others read (R46 (5)). -/
def dataAccess (mn : Mnemonic) (s : State) (ea : Word) : Access :=
  if mn = .sta then .write ea s.A else .read ea

/-- Everything a handler's accesses can be: none where it does not resolve or resolves mode None; otherwise the resolver's
reads, then the data access (R46). -/
theorem handlerAccesses_cases (mn : Mnemonic) (m : Mode) (s : State) :
    ((mn.resolves = false ∨ m = .none) ∧ handlerAccesses mn m s = []) ∨
    (mn.resolves = true ∧ m ≠ .none ∧ ∃ ea, resolve m s = .ok ea ∧
      handlerAccesses mn m s = (resolverReads m s).map Access.read ++ [dataAccess mn s ea]) := by
  cases mn with
  | lda | and | sta =>
    rcases resolve_cases m s with ⟨hm, hr⟩ | ⟨hm, ea, hr⟩
    · exact .inl ⟨.inr hm, by simp [handlerAccesses, hr]⟩
    · exact .inr ⟨rfl, hm, ea, hr, by simp [handlerAccesses, hr, dataAccess]⟩
  | tax | inx | brk | unwired n => exact .inl ⟨.inl rfl, rfl⟩

/-- A handler reads what its resolver reads and, unless it is STA, the byte at the effective address. -/
theorem mem_readAddresses_handlerAccesses {mn : Mnemonic} {m : Mode} {s : State} {a : Word} :
    a ∈ readAddresses (handlerAccesses mn m s) ↔
      mn.resolves = true ∧ (a ∈ resolverReads m s ∨ (mn ≠ .sta ∧ resolve m s = .ok a)) := by
  rcases handlerAccesses_cases mn m s with ⟨hr | rfl, h⟩ | ⟨hr, -, ea, hea, h⟩
  · simp [h, hr, readAddresses]
  · simp [h, readAddresses, resolverReads, resolve]
  · rw [h, readAddresses_map_append, dataAccess]
    simp only [hr, hea, true_and]
    by_cases hm : mn = .sta <;> simp [hm, readAddresses, eq_comm (a := a)]

/-! ### A pass, by what the lookup gives -/

/-- What follows the handler in a pass from s whose opcode byte b has the descriptor d (R95-R97). -/
def Handled.endPass (b : Byte) (d : Descriptor) (s : State) : Handled → Pass
  | .done t =>
    .next { t with
      pc := if t.pc = s.pc + 1#16 then t.pc + (BitVec.ofNat 16 d.length - 1#16) else t.pc
      loopState := .fetch }
  | .halt t => .halt t
  | .raise f => .raise f (faultedAt s)
  | .noHandler => .raise (.unsupportedOpcode b) (faultedAt s)

theorem passTable_of_lookup {T : OpTable} {s : State} {d : Descriptor} (hf : s.loopState = .fetch)
    (hd : T.lookup (s.mem.read s.pc) = some d) :
    passTable T s = (handle d.mnemonic d.mode (afterFetch s)).endPass (s.mem.read s.pc) d s := by
  simp only [passTable, hf, hd]
  cases handle d.mnemonic d.mode (afterFetch s) <;> rfl

theorem accessesTable_of_lookup {T : OpTable} {s : State} {d : Descriptor} (hd : T.lookup (s.mem.read s.pc) = some d) :
    accessesTable T s = .read s.pc :: handlerAccesses d.mnemonic d.mode (afterFetch s) := by
  rw [accessesTable, hd]

theorem accessesTable_of_none {T : OpTable} {s : State} (hd : T.lookup (s.mem.read s.pc) = none) :
    accessesTable T s = [.read s.pc] := by
  rw [accessesTable, hd]

/-! ### What a pass reads decides how it ends -/

/-- The end of a handler, with the memory k in the state it leaves. -/
def Handled.withMem (k : Memory) : Handled → Handled
  | .done t => .done { t with mem := k }
  | .halt t => .halt { t with mem := k }
  | .raise f => .raise f
  | .noHandler => .noHandler

/-- The outcome of a pass, with the memory k in the state it leaves. -/
def Pass.withMem (k : Memory) : Pass → Pass
  | .next t => .next { t with mem := k }
  | .halt t => .halt { t with mem := k }
  | .raise f t => .raise f { t with mem := k }
  | .refused r => .refused r

/-- What follows the handler looks at no memory. -/
theorem Handled.withMem_endPass (k : Memory) (b : Byte) (d : Descriptor) (s : State) (h : Handled) :
    (h.endPass b d s).withMem k = (h.withMem k).endPass b d { s with mem := k } := by
  cases h <;> rfl

/-- A handler depends on memory only through the addresses it lists as read (R82). -/
theorem handle_congr {mn : Mnemonic} {m : Mode} {s : State} {n : Memory}
    (h : ∀ a ∈ readAddresses (handlerAccesses mn m s), n.read a = s.mem.read a) :
    handlerAccesses mn m { s with mem := n } = handlerAccesses mn m s ∧
      ∀ k, (handle mn m { s with mem := n }).withMem k = (handle mn m s).withMem k := by
  simp only [mem_readAddresses_handlerAccesses] at h
  cases mn with
  | lda | and | sta =>
    obtain ⟨hres, hreads⟩ := resolve_congr m s n fun a ha => h a ⟨rfl, .inl ha⟩
    refine ⟨by simp only [handlerAccesses, hres, hreads], fun k => ?_⟩
    simp only [handle, withEa, hres]
    cases hr : resolve m s with
    | ok ea => simp [Handled.withMem, State.setA, State.storeA, Mnemonic.resolves, h, hr]
    | error e => rfl
  | tax | inx | brk | unwired n => exact ⟨rfl, fun _ => rfl⟩

/-- A pass depends on memory only through the addresses it lists as read (R32, R46). -/
theorem passTable_congr {T : OpTable} {s : State} {n : Memory} (hf : s.loopState = .fetch)
    (h : ∀ a ∈ readAddresses (accessesTable T s), n.read a = s.mem.read a) :
    accessesTable T { s with mem := n } = accessesTable T s ∧
      ∀ k, (passTable T { s with mem := n }).withMem k = (passTable T s).withMem k := by
  have hpc : n.read s.pc = s.mem.read s.pc := h s.pc (by simp [accessesTable, readAddresses])
  cases hd : T.lookup (s.mem.read s.pc) with
  | none =>
    have hd' : T.lookup (n.read s.pc) = none := by rw [hpc, hd]
    refine ⟨by rw [accessesTable_of_none hd, accessesTable_of_none hd'], fun k => ?_⟩
    rw [passTable_unsupported hf (by rw [hd]; nofun),
      passTable_unsupported (s := { s with mem := n }) hf (by rw [hd']; nofun)]
    simp only [hpc]
    rfl
  | some d =>
    have hd' : T.lookup (n.read s.pc) = some d := by rw [hpc, hd]
    rw [accessesTable_of_lookup hd] at h ⊢
    obtain ⟨haccesses, hhandle⟩ := handle_congr (s := afterFetch s) fun a ha => h a (List.mem_cons_of_mem _ ha)
    refine ⟨(accessesTable_of_lookup hd').trans (congrArg _ haccesses), fun k => ?_⟩
    rw [passTable_of_lookup hf hd, passTable_of_lookup (s := { s with mem := n }) hf hd',
      Handled.withMem_endPass, Handled.withMem_endPass, ← hhandle k]
    simp only [hpc]
    rfl

theorem Pass.withMem_eq_next {k : Memory} {p : Pass} {t : State} :
    p.withMem k = .next t ↔ ∃ u, p = .next u ∧ { u with mem := k } = t := by
  cases p <;> simp [Pass.withMem]

theorem Pass.withMem_eq_halt {k : Memory} {p : Pass} {t : State} :
    p.withMem k = .halt t ↔ ∃ u, p = .halt u ∧ { u with mem := k } = t := by
  cases p <;> simp [Pass.withMem]

theorem Pass.withMem_eq_raise {k : Memory} {p : Pass} {f : Fault} {t : State} :
    p.withMem k = .raise f t ↔ ∃ u, p = .raise f u ∧ { u with mem := k } = t := by
  cases p <;> simp [Pass.withMem, and_assoc]

/-- Settles O46: over any table the two passes look up the same descriptor, and its handler resolves the same address and
reads the same byte there. -/
theorem passDependsOnlyOnWhatItReads : Obligations.PassDependsOnlyOnWhatItReads := by
  intro s m hf h
  obtain ⟨haccesses, hpass⟩ := passTable_congr hf h
  refine ⟨haccesses, ?_⟩
  rw [pass_eq_passTable, pass_eq_passTable]
  cases hp : passTable Config.opTable s with
  | next t =>
    obtain ⟨t', ht', he⟩ := Pass.withMem_eq_next.mp ((hpass t.mem).trans (congrArg _ hp))
    rw [ht']
    exact he
  | halt t =>
    obtain ⟨t', ht', he⟩ := Pass.withMem_eq_halt.mp ((hpass t.mem).trans (congrArg _ hp))
    rw [ht']
    exact he
  | raise f t =>
    obtain ⟨t', ht', he⟩ := Pass.withMem_eq_raise.mp ((hpass t.mem).trans (congrArg _ hp))
    rw [ht']
    exact ⟨rfl, he⟩
  | refused r => exact absurd hp (passTable_ne_refused hf r)

/-! ### What a pass writes -/

theorem applyWrites_reads_append (as : List Word) (bs : List Access) (m : Memory) :
    applyWrites (as.map Access.read ++ bs) m = applyWrites bs m := by
  induction as with
  | nil => rfl
  | cons a as ih => exact ih

/-- The memory a handler run in memory m leaves; one that raises a fault, or that does not exist, writes nothing (R94). -/
def Handled.memAfter (m : Memory) : Handled → Memory
  | .done t | .halt t => t.mem
  | .raise _ | .noHandler => m

/-- The memory a pass from memory m leaves, whatever its outcome. -/
def Pass.memAfter (m : Memory) : Pass → Memory
  | .next t | .halt t | .raise _ t => t.mem
  | .refused _ => m

theorem Handled.memAfter_endPass (b : Byte) (d : Descriptor) (s : State) (h : Handled) :
    (h.endPass b d s).memAfter s.mem = h.memAfter s.mem := by
  cases h <;> rfl

/-- A handler changes memory only by the writes it lists (R46). -/
theorem handle_memAfter (mn : Mnemonic) (m : Mode) (s : State) :
    (handle mn m s).memAfter s.mem = applyWrites (handlerAccesses mn m s) s.mem := by
  cases mn with
  | lda | and | sta =>
    rcases resolve_cases m s with ⟨-, hr⟩ | ⟨-, ea, hr⟩ <;>
      simp [handle, withEa, handlerAccesses, hr, Handled.memAfter, applyWrites_reads_append, applyWrites]
  | tax | inx | brk | unwired n => rfl

/-- A pass changes memory only by the writes it lists (R46). -/
theorem passTable_memAfter {T : OpTable} {s : State} (hf : s.loopState = .fetch) :
    (passTable T s).memAfter s.mem = applyWrites (accessesTable T s) s.mem := by
  cases hd : T.lookup (s.mem.read s.pc) with
  | none =>
    rw [passTable_unsupported hf (by rw [hd]; nofun), accessesTable_of_none hd]
    rfl
  | some d =>
    rw [passTable_of_lookup hf hd, accessesTable_of_lookup hd, Handled.memAfter_endPass]
    exact handle_memAfter d.mnemonic d.mode (afterFetch s)

theorem pass_mem {s t : State} (hf : s.loopState = .fetch)
    (h : pass s = .next t ∨ pass s = .halt t ∨ ∃ f, pass s = .raise f t) :
    t.mem = applyWrites (accessesTable Config.opTable s) s.mem := by
  rw [← passTable_memAfter hf, ← pass_eq_passTable]
  rcases h with h | h | ⟨f, h⟩ <;> rw [h] <;> rfl

/-! ### How many accesses a pass makes -/

/-- R55 (c) for a descriptor of a well-formed table. -/
theorem resolves_iff_of_lookup {T : OpTable} {b : Byte} {d : Descriptor} (hT : T.wf = true) (hd : T.lookup b = some d) :
    d.mnemonic.resolves = true ↔ d.mode ≠ .none := by
  have h := OpTable.wf_descriptor hT (OpTable.lookup_mem hd)
  simp only [Descriptor.wf, Descriptor.pairsWell, Bool.and_eq_true, beq_iff_eq] at h
  obtain ⟨⟨-, hpairs⟩, -⟩ := h
  rw [hpairs, bne_iff_ne]

/-- Everything the accesses of a pass at a descriptor of a well-formed table can be: Fetch's read alone for mode None;
otherwise Fetch's read, the resolver's and the data access (R46). -/
theorem accessesTable_cases {T : OpTable} {s : State} {d : Descriptor} (hT : T.wf = true)
    (hd : T.lookup (s.mem.read s.pc) = some d) :
    (d.mode = .none ∧ d.mnemonic.resolves = false ∧ accessesTable T s = [.read s.pc]) ∨
    (d.mode ≠ .none ∧ ∃ ea, accessesTable T s =
      (s.pc :: resolverReads d.mode (afterFetch s)).map Access.read ++ [dataAccess d.mnemonic s ea]) := by
  have hpairs := resolves_iff_of_lookup hT hd
  rw [accessesTable_of_lookup hd]
  rcases handlerAccesses_cases d.mnemonic d.mode (afterFetch s) with ⟨hn, h⟩ | ⟨-, hm, ea, -, h⟩ <;> rw [h]
  · have hr : d.mnemonic.resolves = false := by
      rcases hn with hr | hm
      · exact hr
      · simpa [hm] using hpairs
    exact .inl ⟨by simpa [hr] using hpairs, hr, rfl⟩
  · exact .inr ⟨hm, ea, rfl⟩

/-- STA's one write comes last (R46 (5)). -/
theorem accessesTable_sta {T : OpTable} {s : State} {d : Descriptor} (hT : T.wf = true)
    (hd : T.lookup (s.mem.read s.pc) = some d) (hm : d.mnemonic = .sta) :
    ∃ a as, accessesTable T s = List.map Access.read as ++ [.write a s.A] := by
  rcases accessesTable_cases hT hd with ⟨-, hr, -⟩ | ⟨-, ea, h⟩
  · simp [hm, Mnemonic.resolves] at hr
  · exact ⟨ea, _, by rw [h, dataAccess, if_pos hm]⟩

theorem accessesTable_not_sta {T : OpTable} {s : State} {d : Descriptor} (hT : T.wf = true)
    (hd : T.lookup (s.mem.read s.pc) = some d) (hm : d.mnemonic ≠ .sta) :
    ∃ as, accessesTable T s = List.map Access.read as := by
  rcases accessesTable_cases hT hd with ⟨-, -, h⟩ | ⟨-, ea, h⟩
  · exact ⟨[s.pc], h⟩
  · exact ⟨(s.pc :: resolverReads d.mode (afterFetch s)) ++ [ea], by rw [h, dataAccess, if_neg hm, List.map_append]; rfl⟩

/-- Settles O44: the accesses are Fetch's read, the resolver's reads and the data access, and only STA's data access is a
write. -/
theorem memoryAccessesOfAPass : Obligations.MemoryAccessesOfAPass := by
  refine fun s hf => ⟨fun t => pass_mem hf, rfl, accessesTable_of_none, fun d hd =>
    ⟨?_, accessesTable_sta opTable_wf hd, accessesTable_not_sta opTable_wf hd⟩⟩
  rcases accessesTable_cases opTable_wf hd with ⟨hm, -, h⟩ | ⟨hm, ea, h⟩
  · rw [h, hm]
    rfl
  · rw [h]
    generalize d.mode = m at hm
    cases m with
    | none => exact absurd rfl hm
    | _ => rfl

/-! ### A stored byte is seen -/

/-- BRK alone halts, so a step at another instruction that answers a state is a pass that goes on (R98). -/
theorem passTable_of_step_next {s t : State} {d : Descriptor} (hd : Config.opTable.lookup (s.mem.read s.pc) = some d)
    (hm : d.mnemonic ≠ .brk) (h : step s = .next t) : passTable Config.opTable s = .next t := by
  rw [step, pass_eq_passTable] at h
  cases hp : passTable Config.opTable s with
  | next u => rw [hp] at h; exact congrArg Pass.next (Host.Outcome.next.inj h)
  | halt u =>
    obtain ⟨e, he, hbrk, -⟩ := pass_halted hp
    exact absurd (Option.some.inj (hd.symm.trans he) ▸ hbrk) hm
  | raise f u => rw [hp] at h; cases h
  | refused r => rw [hp] at h; cases h

/-- A pass that goes on has moved pc past the descriptor's length (R95). -/
theorem pass_next_pc {T : OpTable} {s t : State} {d : Descriptor} (hd : T.lookup (s.mem.read s.pc) = some d)
    (h : passTable T s = .next t) : t.pc = s.pc + BitVec.ofNat 16 d.length := by
  have hf : s.loopState = .fetch := fetch_of_pass (by rw [h]; nofun)
  rcases passTable_cases T hf with ⟨hp, -⟩ | ⟨hp, -⟩ | ⟨e, -, -, hp⟩ | ⟨e, u, he, -, hp⟩ <;> rw [h] at hp <;> cases hp
  obtain rfl : d = e := Option.some.inj (hd.symm.trans he)
  rfl

/-- Settles O45: STA's write is the pass's last access and nothing is written after it, so the next Fetch reads A there. -/
theorem storedByteIsSeenByTheNextFetch : Obligations.StoredByteIsSeenByTheNextFetch := by
  intro s t d hd hm h
  have hp := passTable_of_step_next hd (by rw [hm]; nofun) h
  have hf : s.loopState = .fetch := fetch_of_pass (by rw [hp]; nofun)
  obtain ⟨a, as, haccesses⟩ := accessesTable_sta opTable_wf hd hm
  have hread : t.mem.read a = s.A := by
    rw [pass_mem hf (.inl ((pass_eq_passTable s).trans hp)), haccesses, applyWrites_reads_append]
    exact Memory.read_write_same s.mem a s.A
  exact ⟨a, by simp [haccesses], hread, pass_next_pc hd hp, fun ha => ⟨_, rfl, ha ▸ hread⟩⟩

end Sys2Proof.Machine
end

section
/-! Obligation O60: the host and a Run in progress. -/

namespace Sys2Proof.Machine

theorem Context.call_inProgress {c : Context} (h : c.runInProgress = true) (T : OpTable) (n : Nat) (op : HostOp) :
    c.call T n op = (.refused .runInProgress, c) := if_pos h

theorem Context.run_of_valued {c : Context} (hpc : c.valued.pc = true) (T : OpTable) (n : Nat) :
    c.run T n = Context.runFrom T n { c with state := c.state.beginRun } := by
  rw [Context.run, hpc]
  rfl

/-- Following a Run for n instructions and, where it has not ended by then, for k more is following it for n + k (R154). -/
theorem Context.runFrom_add (T : OpTable) (k : Nat) : ∀ (n : Nat) (c : Context), (Context.runFrom T n c).1 = .running →
    Context.runFrom T (n + k) c = Context.runFrom T k (Context.runFrom T n c).2
  | 0, c, _ => by
    rw [Nat.zero_add]
    exact (Context.runFrom_mark T k c true).symm
  | n + 1, c, h => by
    rw [Nat.add_right_comm]
    cases hm : c.missing T with
    | some r => rw [Context.runFrom_missing hm] at h; cases h
    | none =>
      cases hp : passTable T c.state with
      | next t =>
        rw [Context.runFrom_next hm hp] at h ⊢
        rw [Context.runFrom_next hm hp]
        exact Context.runFrom_add T k n _ h
      | halt t => rw [Context.runFrom_halt hm hp] at h; cases h
      | raise f t => rw [Context.runFrom_raise hm hp] at h; cases h
      | refused r => simp [Context.runFrom, hm, hp] at h

/-- Every host operation either begins a Run and follows it, from a context in loop state Fetch that does not depend on how far
it is followed, or leaves no Run in progress (R154, R155). -/
theorem Context.perform_cases (T : OpTable) {c : Context} (h : c.runInProgress = false) (op : HostOp) :
    ((op = .run ∨ ∃ bytes, op = .loadAndRun bytes) ∧ ∃ c₀ : Context, c₀.state.loopState = .fetch ∧
      ∀ n, c.perform T n op = (.ran (Context.runFrom T n c₀).1, (Context.runFrom T n c₀).2)) ∨
    (∀ n, (c.perform T n op).1 ≠ .ran .running ∧ (c.perform T n op).2.runInProgress = false) := by
  cases op with
  | load bytes =>
    refine .inr fun n => ?_
    rw [Context.perform]
    rcases Nat.lt_or_ge 0x8000 bytes.length with hb | hb
    · rw [Context.load_too_long hb]
      exact ⟨nofun, h⟩
    · rw [Context.load_fits hb]
      exact ⟨nofun, h⟩
  | run =>
    cases hpc : c.valued.pc with
    | false =>
      refine .inr fun n => ?_
      rw [Context.perform, Context.run, hpc]
      exact ⟨nofun, h⟩
    | true =>
      exact .inl ⟨.inl rfl, { c with state := c.state.beginRun }, rfl, fun n => by
        rw [Context.perform, Context.run_of_valued hpc]⟩
  | loadAndRun bytes =>
    rcases Nat.lt_or_ge 0x8000 bytes.length with hb | hb
    · refine .inr fun n => ?_
      rw [Context.perform, Context.load_too_long hb]
      exact ⟨nofun, h⟩
    · refine .inl ⟨.inr ⟨bytes, rfl⟩,
        { (c.loaded bytes).reset with state := (c.loaded bytes).reset.state.beginRun }, rfl, fun n => ?_⟩
      rw [Context.perform, Context.load_fits hb]
      simp only [Context.run_of_valued (c := (c.loaded bytes).reset) rfl]
  | readReg r =>
    refine .inr fun n => ?_
    rw [Context.perform]
    split <;> exact ⟨nofun, h⟩
  | reset | readByte a | writeByte a v | readWord a | writeWord a w | writeReg v => exact .inr fun n => ⟨nofun, h⟩

/-- Settles O60: an operation that leaves a Run in progress has followed it from a context of its own, and following it further
takes up the context it left. -/
theorem hostHasNoMoveDuringARun : Obligations.HostHasNoMoveDuringARun := by
  refine fun T n k c op => ⟨fun h => Context.call_inProgress h T n op, fun h => ?_⟩
  rw [Context.call_eq_perform h, Context.call_eq_perform h]
  rcases Context.perform_cases T h op with ⟨hop, c₀, hf, hrun⟩ | hnone
  · obtain ⟨hmark, hfetch⟩ := Context.runFrom_inProgress T n c₀ hf
    rw [hrun n, hrun (n + k)]
    refine ⟨by simpa using hmark, fun hr => ?_⟩
    have hr : (Context.runFrom T n c₀).1 = .running := Reply.ran.inj hr
    rw [Context.goOn_inProgress (hmark.mpr hr), Context.runFrom_add T k n c₀ hr]
    exact ⟨hop, hfetch hr, _, rfl, rfl⟩
  · obtain ⟨hreply, hmark⟩ := hnone n
    exact ⟨⟨fun hm => absurd (hmark.symm.trans hm) nofun, fun hr => absurd hr hreply⟩, fun hr => absurd hr hreply⟩

end Sys2Proof.Machine
end

section
/-! The rows of the default table by opcode byte: which bytes have a descriptor, and which has BRK's. -/

namespace Sys2Proof.Machine

/-- The codes of the default table are the first column of R56, in another order. -/
theorem mem_supportedBytes {b : Byte} : b ∈ supportedBytes ↔ ∃ d ∈ Config.opTable, d.code = b := by
  have hperm : supportedBytes.Perm (Config.opTable.map Descriptor.code) := by decide
  rw [hperm.mem_iff, List.mem_map]

/-- The bytes without a descriptor (R58). -/
theorem lookup_eq_none_iff {b : Byte} : Config.opTable.lookup b = none ↔ b ∉ supportedBytes := by
  simp [OpTable.lookup, mem_supportedBytes]

theorem mem_supportedBytes_of_lookup {b : Byte} {d : Descriptor} (hd : Config.opTable.lookup b = some d) :
    b ∈ supportedBytes :=
  mem_supportedBytes.mpr ⟨d, OpTable.lookup_mem hd, OpTable.lookup_code hd⟩

/-- BRK has one row, that of 0x00 (R57). -/
theorem lookup_brk_iff {b : Byte} {d : Descriptor} (hd : Config.opTable.lookup b = some d) :
    d.mnemonic = .brk ↔ b = 0x00#8 := by
  have hrows : ∀ e ∈ Config.opTable, e.mnemonic = .brk ↔ e.code = 0x00#8 := by decide
  rw [hrows d (OpTable.lookup_mem hd), OpTable.lookup_code hd]

end Sys2Proof.Machine
end

section
/-! Obligations O35, O36 and O38: the decoder of the hardware and the encoder are inverse, one instruction at a time and along
a walk. -/

namespace Sys2Proof

/-! ### One instruction -/

/-- The default table is well formed, so an encoding decodes to its form, and the form assembles to its instruction. -/
theorem decode_encode (i : Instr) (rest : List Byte) : decode (encode i ++ rest) = .ok (i, rest) := by
  have hform : decodeWith Config.opTable (encode i ++ rest) = .ok (i.form, rest) :=
    decodeWith_encodeWith opTable_wf i.encodeWith_form rest
  have hi : assemble i.form.mnemonic i.form.mode i.form.operands = some i := assemble_operands i
  simp only [decode, hform, hi]

theorem decode_unsupported {b : Byte} (h : b ∉ Machine.supportedBytes) (rest : List Byte) :
    decode (b :: rest) = .error (.unsupported b) := by
  simp only [decode, decodeWith, Machine.lookup_eq_none_iff.mpr h]

/-! ### A walk -/

/-- Where each element a decoder gives is one whose encoding it has used up, a walk has used up the concatenation of the
encodings (R60). -/
theorem flatMap_of_walk {α : Type} {one : List Byte → Except DecodeError (α × List Byte)} {enc : α → List Byte}
    (hone : ∀ a bytes rest, one bytes = .ok (a, rest) → bytes = enc a ++ rest) :
    ∀ (fuel : Nat) (bytes : List Byte) (as : List α), walk one fuel bytes = .ok as → as.flatMap enc = bytes
  | 0, [], _, h | _ + 1, [], _, h => by
    cases h
    rfl
  | 0, _ :: _, _, h => by cases h
  | fuel + 1, b :: bs, as, h => by
    rw [walk] at h
    cases hfirst : one (b :: bs) with
    | error e => simp [hfirst] at h
    | ok r =>
      obtain ⟨a, rest⟩ := r
      cases hrest : walk one fuel rest with
      | error e => simp [hfirst, hrest] at h
      | ok as' =>
        obtain rfl : a :: as' = as := by simpa [hfirst, hrest] using h
        rw [List.flatMap_cons, flatMap_of_walk hone fuel rest as' hrest, hone a _ rest hfirst]

/-- Settles O35: each encoding is not empty and decodes to its instruction whatever follows it, so a walk goes from boundary to
boundary. -/
theorem decodingAnEncodedSequenceGivesItBack : Obligations.DecodingAnEncodedSequenceGivesItBack := by
  intro is
  have hone : ∀ i bytes rest, some (encode i) = some bytes → decode (bytes ++ rest) = .ok (i, rest) := by
    rintro i _ rest ⟨⟩
    exact decode_encode i rest
  have hbytes : encodeAll is = (is.map encode).flatten := List.flatMap_def
  rw [decodeAll, hbytes]
  exact walk_flatten hone (fun _ => nofun) is (is.map encode) _ List.map_map.symm le_rfl

/-- Settles O36: a successful decode has used up the bytes of its instruction's encoding and no other. -/
theorem decodedBytesAreTheEncoding : Obligations.DecodedBytesAreTheEncoding :=
  fun bytes is h => flatMap_of_walk (fun _ _ _ => decode_ok) bytes.length bytes is h

/-- Settles O38: seven of the words are encodings, and the others begin with a byte that has no descriptor. -/
theorem specWordsDecode : Obligations.SpecWordsDecode :=
  ⟨decode_encode (.ldaImm 0x80#8) [], decode_encode (.ldaAbs 0x1234#16) [], decode_encode (.staIndX 0xFF#8) [],
    decode_encode (.andIndX 0x30#8) [], decode_encode .tax [], decode_encode .inx [], decode_encode .brk [],
    decode_unsupported (by decide) _, decode_unsupported (by decide) _, decode_unsupported (by decide) _⟩

end Sys2Proof
end

section
/-! Obligations O20, O21, O43 and O52: how a pass ends by the byte at pc and its descriptor, and what a Run that halted has
gone through. -/

namespace Sys2Proof.Machine

/-! ### With the default table -/

/-- The three ways a pass can end, each with the bytes it ends so at (R57, R58, R147). -/
theorem pass_by_byte {s : State} (hf : s.loopState = .fetch) :
    (s.mem.read s.pc ∉ supportedBytes ∧ ∃ f t, pass s = .raise f t) ∨
    (s.mem.read s.pc = 0x00#8 ∧ ∃ t, pass s = .halt t) ∨
    (s.mem.read s.pc ∈ supportedBytes ∧ s.mem.read s.pc ≠ 0x00#8 ∧ ∃ t, pass s = .next t) := by
  rcases pass_cases hf with ⟨hd, hp⟩ | ⟨d, i, t, hd, -, -, -, hm, -, -, -, -, hend⟩
  · exact .inl ⟨lookup_eq_none_iff.mp hd, _, _, hp⟩
  · have hbrk : i = .brk ↔ s.mem.read s.pc = 0x00#8 := by rw [eq_brk_iff_mnemonic, hm, lookup_brk_iff hd]
    rcases hend with ⟨hi, -, hp⟩ | ⟨hi, -, hp⟩
    · exact .inr (.inl ⟨hbrk.mp hi, _, hp⟩)
    · exact .inr (.inr ⟨mem_supportedBytes_of_lookup hd, mt hbrk.mpr hi, _, hp⟩)

/-- Settles O20: the three ends exclude each other, and so do the bytes they come at. -/
theorem onlyBrkOrAnUnsupportedByteStops : Obligations.OnlyBrkOrAnUnsupportedByteStops := by
  intro s hf
  have hzero : 0x00#8 ∈ supportedBytes := by decide
  rcases pass_by_byte hf with ⟨hb, f, t, hp⟩ | ⟨hb, t, hp⟩ | ⟨hb, hne, t, hp⟩
  · have hne : s.mem.read s.pc ≠ 0x00#8 := fun h => hb (h ▸ hzero)
    simp [hp, hb, hne]
  · simp [hp, hb, hzero]
  · simp [hp, hb, hne]

/-- Settles O21: such a byte has no descriptor, and Dispatch raises the fault in the state Fetch left. -/
theorem unsupportedByteFaults : Obligations.UnsupportedByteFaults := by
  refine ⟨fun s hf hb => ?_, fun b => lookup_eq_none_iff, by decide +kernel, fun T s d hf hd hw => ?_⟩
  · have hp := pass_unsupported hf (lookup_eq_none_iff.mpr hb)
    exact ⟨by rw [step, hp]; rfl, hp⟩
  · exact passTable_unsupported hf fun e he => Option.some.inj (hd.symm.trans he) ▸ hw

/-! ### Over any table -/

/-- Where the handler completes without moving pc, the pass goes past the descriptor's length (R95). -/
theorem passTable_done {T : OpTable} {s t : State} {d : Descriptor} (hf : s.loopState = .fetch)
    (hd : T.lookup (s.mem.read s.pc) = some d) (ht : handle d.mnemonic d.mode (afterFetch s) = .done t)
    (hpc : t.pc = s.pc + 1#16) :
    passTable T s = .next { t with pc := s.pc + BitVec.ofNat 16 d.length, loopState := .fetch } := by
  simp only [passTable_of_lookup hf hd, ht, Handled.endPass, hpc, if_true, Word.fetch_then_advance]

/-- Settles O43: TAX, INX and BRK have a handler that does not look at the mode, and Advance looks at the length only. -/
theorem illFormedTablesBehaveAsDefined : Obligations.IllFormedTablesBehaveAsDefined := by
  refine fun T s d hf hd => ⟨fun hm => ?_, fun hm => ?_, passTable_brk hf hd, fun t => pass_next_pc hd⟩
  · have ht : handle d.mnemonic d.mode (afterFetch s) = .done ((afterFetch s).setX s.A) := by rw [hm]; rfl
    rw [passTable_done hf hd ht rfl, ← hf]
    rfl
  · have ht : handle d.mnemonic d.mode (afterFetch s) = .done ((afterFetch s).setX (s.X + 1#8)) := by rw [hm]; rfl
    rw [passTable_done hf hd ht rfl, ← hf]
    rfl

/-- Settles O52: the pass that halted was at a descriptor of BRK, and BRK writes no memory. -/
theorem haltedRunEndsAfterABrk : Obligations.HaltedRunEndsAfterABrk := by
  rintro T s t ⟨u, hsteps, hp⟩
  obtain ⟨d, hd, hbrk, rfl⟩ := pass_halted hp
  refine ⟨u, d, hsteps, hd, hbrk, rfl, ?_, ?_⟩
  · rw [BitVec.add_sub_cancel]
  · rintro rfl
    exact (lookup_brk_iff hd).mp hbrk

end Sys2Proof.Machine
end

section
/-! Obligations O32, O33 and O34: the address each mode resolves to, as a number (R71-R80). An indexed mode is
a sum, of two bytes at 8 bits or of a word and a byte at 16, over an operand or a pointer read as a number. -/

namespace Sys2Proof.Machine

/-! ### The sums of R81 -/

/-- A byte plus a byte wraps before it becomes an address, which is then in page 0 (R73, R74, R81). -/
theorem toNat_zext16_add (b c : Byte) : (zext16 (b + c)).toNat = (b.toNat + c.toNat) % 256 := by
  rw [toNat_zext16, BitVec.toNat_add]

/-- A word plus an index register carries into the high byte and wraps at 16 bits (R76, R77, R81). -/
theorem Word.toNat_add_zext16 (w : Word) (b : Byte) : (w + zext16 b).toNat = (w.toNat + b.toNat) % 65536 := by
  rw [BitVec.toNat_add, toNat_zext16]

/-! ### The words an address is read from -/

/-- `MemRead(a, 2)` as a number (R34). -/
theorem Memory.toNat_readWord (m : Memory) (a : Word) :
    (m.readWord a).toNat = (m.read a).toNat + 256 * (m.read (a + 1#16)).toNat :=
  cat_toNat _ _

/-- What memory holds at a page-0 address, as the host reads it by number. -/
theorem State.read_zext16 (s : State) (p : Byte) : s.mem.read (zext16 p) = s.readByte p.toNat := by
  rw [State.readByte, ← zext16_eq_ofNat p _ rfl]

/-- `MemReadZP(p, 2)` as a number: the high byte's address wraps in page 0 (R36). -/
theorem State.toNat_readZP (s : State) (p : Byte) :
    (s.mem.readZP p).toNat = (s.readByte p.toNat).toNat + 256 * (s.readByte ((p.toNat + 1) % 256)).toNat := by
  have hnext : (p + 1#8).toNat = (p.toNat + 1) % 256 := BitVec.toNat_add p 1#8
  rw [Memory.readZP, cat_toNat, State.read_zext16, State.read_zext16, hnext]

/-! ### The modes -/

/-- Settles O32: the two indexed modes are sums of two bytes. -/
theorem zeroPageAddressesWrapInPageZero : Obligations.ZeroPageAddressesWrapInPageZero := fun s =>
  ⟨rfl, ⟨_, rfl, toNat_zext16 _⟩, ⟨_, rfl, toNat_zext16_add _ s.X⟩, ⟨_, rfl, toNat_zext16_add _ s.Y⟩⟩

/-- Settles O33: the operand word read as a number, and its sum with an index register. -/
theorem absoluteAddressesWrapAtSixteenBits : Obligations.AbsoluteAddressesWrapAtSixteenBits := by
  intro s
  have hword := Memory.toNat_readWord s.mem s.pc
  refine ⟨⟨_, rfl, hword⟩, ⟨_, rfl, ?_⟩, ⟨_, rfl, ?_⟩⟩
  · rw [eaAbsoluteX, Word.toNat_add_zext16, hword]
  · rw [eaAbsoluteY, Word.toNat_add_zext16, hword]

/-- Settles O34: IndirectX adds at 8 bits before it reads the pointer, IndirectY at 16 bits after it. -/
theorem indirectPointersStayInPageZero : Obligations.IndirectPointersStayInPageZero := by
  rintro s d x y rfl rfl rfl
  refine ⟨⟨_, rfl, ?_⟩, ⟨_, rfl, ?_⟩, rfl⟩
  · rw [eaIndirectX, State.toNat_readZP, BitVec.toNat_add, Nat.mod_add_mod]
  · rw [eaIndirectY, Word.toNat_add_zext16, State.toNat_readZP]

end Sys2Proof.Machine
end

section
/-! Obligations O41, O50 and O51: the pass of the hardware is the pass over the default table, and a Run followed far enough ends
where the chain of passes ends, once for all. -/

namespace Sys2Proof.Machine

/-- Settles O41: before and after the handler the two passes are the same, and the handler of a row's mnemonic and mode is the
meaning of the instruction assembled from that row. -/
theorem stepIsTheTableMachineAtTheDefaultTable : Obligations.StepIsTheTableMachineAtTheDefaultTable := pass_eq_passTable

/-! ### Run -/

/-- Run ends at a pass that halts, however much further it would be followed (R96, R154). -/
theorem runFrom_halt {T : OpTable} {s t : State} (hp : passTable T s = .halt t) (n : Nat) :
    runFrom T (n + 1) s = (.halted, t) := by
  rw [runFrom, hp]

/-- Run ends at a pass that faults, however much further it would be followed (R97, R154). -/
theorem runFrom_raise {T : OpTable} {s t : State} {f : Fault} (hp : passTable T s = .raise f t) (n : Nat) :
    runFrom T (n + 1) s = (.fault f, t) := by
  rw [runFrom, hp]

theorem runFrom_refused {T : OpTable} {s : State} {r : Refusal} (hp : passTable T s = .refused r) (n : Nat) :
    runFrom T (n + 1) s = (.refused r, s) := by
  rw [runFrom, hp]

theorem runFrom_next {T : OpTable} {s t : State} (hp : passTable T s = .next t) (n : Nat) :
    runFrom T (n + 1) s = runFrom T n t := by
  rw [runFrom, hp]

/-- Settles O50: a run followed to its end has gone through a chain of passes, and a chain is what a run followed far enough
goes through; one more instruction then is the pass that ends it. -/
theorem runIsTheClosureOfStep : Obligations.RunIsTheClosureOfStep := by
  refine fun T s t => ⟨⟨?_, ?_⟩, fun f => ⟨?_, ?_⟩⟩
  · rintro ⟨n, hn⟩
    simpa only [hn] using runFrom_spec T n s
  · rintro ⟨u, hsteps, hp⟩
    obtain ⟨n, hn⟩ := hsteps.runFrom 1
    exact ⟨n, hn.trans (runFrom_halt hp 0)⟩
  · rintro ⟨n, hn⟩
    simpa only [hn] using runFrom_spec T n s
  · rintro ⟨u, hsteps, hp⟩
    obtain ⟨n, hn⟩ := hsteps.runFrom 1
    exact ⟨n, hn.trans (runFrom_raise hp 0)⟩

/-- A run that has ended within n instructions is the same run followed for k more (R154). -/
theorem runFrom_add_of_ended (T : OpTable) (k : Nat) : ∀ (n : Nat) (s : State), (runFrom T n s).1 ≠ .running →
    runFrom T (n + k) s = runFrom T n s
  | 0, _, h => absurd rfl h
  | n + 1, s, h => by
    rw [Nat.add_right_comm]
    cases hp : passTable T s with
    | next t =>
      rw [runFrom_next hp] at h
      rw [runFrom_next hp, runFrom_next hp, runFrom_add_of_ended T k n t h]
    | halt t => rw [runFrom_halt hp, runFrom_halt hp]
    | raise f t => rw [runFrom_raise hp, runFrom_raise hp]
    | refused r => rw [runFrom_refused hp, runFrom_refused hp]

/-- Settles O51, by induction on the instructions within which the run has ended. -/
theorem runEndsOnceForAll : Obligations.RunEndsOnceForAll := fun T n k s h => runFrom_add_of_ended T k n s h

end Sys2Proof.Machine
end

section
/-! Obligations O19, O40, O22 and O39: how the loop moves pc, where no step is enabled, and the step at an instruction the bytes at
pc decode to. -/

namespace Sys2Proof.Machine

/-! ### pc -/

/-- Settles O19: a fault and a halt leave pc where Fetch put it, and Advance adds the length less one to that (R92, R95). -/
theorem pcMovesByTheLength : Obligations.PcMovesByTheLength := by
  refine fun s hf => ⟨fun hd => ⟨_, _, pass_unsupported hf hd, rfl, rfl⟩, fun d hd hm => ?_, fun d hd hm => ?_⟩
  · rw [pass_eq_passTable]
    exact ⟨_, passTable_brk hf hd hm, rfl, rfl⟩
  · rcases pass_cases hf with ⟨hn, -⟩ | ⟨e, i, t, he, -, -, -, hmn, -, -, -, -, hend⟩
    · cases hd.symm.trans hn
    · obtain rfl : d = e := Option.some.inj (hd.symm.trans he)
      rcases hend with ⟨hi, -⟩ | ⟨-, -, hp⟩
      · exact absurd (hmn ▸ eq_brk_iff_mnemonic.mp hi) hm
      · exact ⟨_, hp, Word.fetch_then_advance _ _, rfl⟩

/-- What Advance adds, as a number: the operand bytes (R95). -/
theorem Word.toNat_add_length_sub_one (a : Word) {n : Nat} (hn : 1 ≤ n) :
    (a + (BitVec.ofNat 16 n - 1#16)).toNat = (a.toNat + (n - 1)) % 65536 := by
  obtain ⟨k, rfl⟩ := Nat.exists_eq_add_of_le' hn
  rw [BitVec.ofNat_add, BitVec.add_sub_cancel, BitVec.toNat_add, BitVec.toNat_ofNat, Nat.add_mod_mod, Nat.add_sub_cancel]

/-- Settles O40: the two branches of Advance, its frame, and that no meaning writes pc. -/
theorem advanceUnlessRedirected : Obligations.AdvanceUnlessRedirected := by
  refine fun s l n hl hn _ => ⟨fun h => ?_, fun h => ?_, rfl, rfl, rfl, rfl, rfl, rfl, rfl, fun i u t ht => ?_⟩
  · rw [State.advance_pc s n l hl, if_pos h, Word.toNat_add_length_sub_one _ hn]
  · rw [State.advance_pc s n l hl, if_neg h]
  · obtain ⟨-, hpc, -⟩ := exec_frame ht
    exact hpc

/-! ### One step -/

/-- Settles O22: the pass is refused there, and a refused pass is a refused step. -/
theorem noStepOutsideFetch : Obligations.NoStepOutsideFetch := by
  intro s h
  rw [step, pass_not_fetch h]
  rfl

/-- Bytes that begin a run of bytes in memory are the bytes read there. -/
theorem Memory.readBytes_of_append {m : Memory} {rest : List Byte} : ∀ {bs : List Byte} {a : Word} {n : Nat},
    m.readBytes a n = bs ++ rest → m.readBytes a bs.length = bs
  | [], _, _, _ => rfl
  | b :: bs, _, 0, h => by cases h
  | b :: bs, a, n + 1, h => by
    obtain ⟨hb, hbs⟩ := List.cons.inj h
    rw [List.length_cons, Memory.readBytes, hb, Memory.readBytes_of_append hbs]

/-- The bytes of the instruction that the bytes at pc decode to stand at pc. -/
theorem encode_at_pc_of_decode {s : State} {i : Instr} {rest : List Byte} {n : Nat}
    (h : decode (s.mem.readBytes s.pc n) = .ok (i, rest)) :
    s.mem.read s.pc = i.opcode ∧ s.mem.readBytes (s.pc + 1#16) i.operands.length = i.operands :=
  List.cons.inj (Memory.readBytes_of_append (decode_ok h))

/-- What follows the handler, as the outcome of a step: a halt is a next state too (R94-R96). -/
theorem afterHandler_next_outcome (n : Nat) (u t : State) : (afterHandler n u (.next t)).outcome =
    if t.loopState = .halted then .next { t with latch := none } else .next (advance n t) := by
  rw [afterHandler]
  split <;> rfl

/-- Settles O39: a successful decode says that the instruction's bytes stand at pc, so the pass runs its handler at the state after
Dispatch; each answer of the handler then ends the step as it ends the pass. -/
theorem stepRunsTheDecodedInstruction : Obligations.StepRunsTheDecodedInstruction := by
  intro s i rest hf hdec _
  obtain ⟨hopcode, hoperands⟩ := encode_at_pc_of_decode hdec
  obtain ⟨d, hd, hm, hmo, hlen, hi⟩ := at_instr hopcode hoperands
  refine ⟨d, atExecute s d, hd, hm, hmo, hlen.trans (Nat.add_comm _ _), rfl, ?_⟩
  rw [step, pass_runs hf hd hi]
  cases exec i (atExecute s d) with
  | next t => exact afterHandler_next_outcome d.length (atExecute s d) t
  | fault f => rfl
  | refused r => rfl

end Sys2Proof.Machine
end

section
/-! Obligations O12 to O15: what each instruction answers, in every state. Every meaning is one of the operations of Ops.lean on
the effective address of its form, and these are the states they make, field by field. -/

namespace Sys2Proof.Machine

/-- Settles O12: each form's answer is `setA` of the byte at its effective address. -/
theorem ldaMeaningsComplete : Obligations.LdaMeaningsComplete := fun _ _ _ =>
  ⟨rfl, rfl, rfl, rfl, rfl, rfl, rfl, rfl⟩

/-- Settles O13: each form's answer is `storeA` at its effective address. -/
theorem staMeaningsComplete : Obligations.StaMeaningsComplete := fun _ _ _ =>
  ⟨rfl, rfl, rfl, rfl, rfl, rfl, rfl⟩

/-- Settles O14: each form's answer is `setA` of A and the byte at its effective address. -/
theorem andMeaningsComplete : Obligations.AndMeaningsComplete := fun _ _ _ =>
  ⟨rfl, rfl, rfl, rfl, rfl, rfl, rfl, rfl⟩

/-- Settles O15: TAX and INX answer `setX`, BRK answers `halt`. -/
theorem registerAndSystemMeaningsComplete : Obligations.RegisterAndSystemMeaningsComplete := fun _ =>
  ⟨rfl, rfl, rfl⟩

end Sys2Proof.Machine
end

section
/-! Obligations O11, O16 and O17: the handlers of LDA, AND and STA over any mode, and what their instructions leave alone. -/

namespace Sys2Proof.Machine

/-- A handler whose mode resolves completes with what it does at the effective address (R94). -/
theorem withEa_of_resolve {m : Mode} {s : State} {ea : Word} (hr : resolve m s = .ok ea) (f : Word → State) :
    withEa m s f = .done (f ea) := by
  rw [withEa, hr]

/-- Settles O11: each of the three handlers is `withEa` of its own effect, and the resolver fails for mode None alone. -/
theorem handlersWorkForEveryMode : Obligations.HandlersWorkForEveryMode := by
  refine fun m s => ⟨fun ea hr => ?_, ?_, fun hm => ?_⟩
  · exact ⟨withEa_of_resolve hr _, withEa_of_resolve hr _, withEa_of_resolve hr _⟩
  · rintro rfl
    exact ⟨rfl, rfl, rfl⟩
  · rcases resolve_cases m s with ⟨hnone, -⟩ | ⟨-, hea⟩
    · exact absurd hnone hm
    · exact hea

/-- Settles O16: every meaning's frame, and of the LDA and AND meanings that they write A and P only. -/
theorem loadFrame : Obligations.LoadFrame := by
  intro i s t hm h
  obtain ⟨hY, hpc, hlatch, hP, -, hloop, -⟩ := exec_frame h
  have hbrk : i ≠ .brk := by
    rintro rfl
    simp [Instr.mnemonic] at hm
  have hkept : t.X = s.X ∧ t.mem = s.mem := by
    have hw := exec_writes h
    rcases hm with hm | hm
    all_goals
      rw [hm] at hw
      obtain ⟨-, hX, -, hmem⟩ := hw
      exact ⟨hX, hmem⟩
  obtain ⟨hX, hmem⟩ := hkept
  exact ⟨hX, hY, hpc, hloop hbrk, hlatch, hP, fun a => by rw [hmem]⟩

/-- Storing, said once: an STA form stores A at its store address and does nothing else; no other instruction has a store
address or changes memory (R33, R119, R199). -/
theorem exec_store_cases {i : Instr} {s t : State} (h : exec i s = .next t) :
    (i.mnemonic = .sta ∧ ∃ a, storeAddress i s = some a ∧ t = s.storeA a) ∨
    (i.mnemonic ≠ .sta ∧ storeAddress i s = none ∧ t.mem = s.mem) := by
  cases i <;> cases h
  case staIndX | staZp | staAbs | staIndY | staZpX | staAbsY | staAbsX => exact .inl ⟨rfl, _, rfl, rfl⟩
  all_goals exact .inr ⟨nofun, rfl, rfl⟩

/-- Settles O17: the two cases of storing, each with what a read of memory then gives. -/
theorem storeFrame : Obligations.StoreFrame := by
  intro i s t h
  rcases exec_store_cases h with ⟨-, a, ha, rfl⟩ | ⟨hm, hnone, hmem⟩
  · refine ⟨fun a' ha' => ?_, fun hnone => ?_, fun _ => ⟨⟨a, ha⟩, rfl, rfl, rfl, rfl, rfl, rfl, rfl⟩⟩
    · obtain rfl : a = a' := Option.some.inj (ha.symm.trans ha')
      exact ⟨Memory.read_write_same s.mem a s.A, fun b hb => Memory.read_write_other s.mem s.A hb⟩
    · cases ha.symm.trans hnone
  · exact ⟨fun a ha => absurd (hnone.symm.trans ha) nofun, fun _ b => by rw [hmem], fun hsta => absurd hsta hm⟩

end Sys2Proof.Machine
end

section
/-! Obligations O1 to O7: the whole step at each opcode byte of LDA, AND and STA. A step at a byte of the table runs the handler
of the byte's row and goes past the row's length, so a step at one of these bytes is known by the address its mode
resolves to. -/

namespace Sys2Proof.Machine

/-! ### What a mode resolves to and what is accessed -/

theorem Word.succ_succ (a : Word) : a + 1#16 + 1#16 = a + 2#16 := BitVec.add_assoc a 1#16 1#16

theorem readWord_afterFetch (s : State) : (afterFetch s).mem.readWord (afterFetch s).pc = s.operandWord := by
  rw [Memory.readWord, State.afterFetch_pc, Word.succ_succ]
  rfl

theorem resolve_absolute (s : State) : resolve .absolute (afterFetch s) = .ok s.operandWord :=
  congrArg Except.ok (readWord_afterFetch s)

theorem resolve_absoluteX (s : State) : resolve .absoluteX (afterFetch s) = .ok (s.operandWord + zext16 s.X) :=
  congrArg (fun w => Except.ok (w + zext16 s.X)) (readWord_afterFetch s)

theorem resolve_absoluteY (s : State) : resolve .absoluteY (afterFetch s) = .ok (s.operandWord + zext16 s.Y) :=
  congrArg (fun w => Except.ok (w + zext16 s.Y)) (readWord_afterFetch s)

/-- The modes of format F3 read the two operand bytes and nothing else (R46 (2), R52). -/
theorem resolverReads_of_length_three {m : Mode} (hm : m.length = 3) (s : State) :
    resolverReads m (afterFetch s) = [s.pc + 1#16, s.pc + 2#16] := by
  rw [← Word.succ_succ]
  cases m with
  | absolute | absoluteX | absoluteY => rfl
  | immediate | zeroPage | zeroPageX | zeroPageY | indirectX | indirectY | none => cases hm

theorem handlerAccesses_sta_of_resolve {m : Mode} {s : State} {ea : Word} (hr : resolve m s = .ok ea) :
    handlerAccesses .sta m s = (resolverReads m s).map Access.read ++ [.write ea s.A] := by
  simp only [handlerAccesses, hr]

/-! ### A step by the row of its opcode byte -/

section
variable {s : State} {b v : Byte} {d : Descriptor} {ea : Word}

/-- A step at a byte whose handler completes and leaves pc alone: what the handler does, then past the row's length (R95). -/
theorem step_done {t : State} (h : s.atOpcode b) (hd : Config.opTable.lookup b = some d)
    (ht : handle d.mnemonic d.mode (afterFetch s) = .done t) (hpc : t.pc = s.pc + 1#16) :
    step s = .next { t with pc := s.pc + BitVec.ofNat 16 d.length, loopState := .fetch } := by
  obtain ⟨hf, rfl⟩ := h
  rw [step, pass_eq_passTable, passTable_done hf hd ht hpc]
  rfl

/-- A step whose handler sets A (R110, R130). -/
theorem step_setA (h : s.atOpcode b) (hd : Config.opTable.lookup b = some d)
    (ht : handle d.mnemonic d.mode (afterFetch s) = .done ((afterFetch s).setA v)) :
    step s = .next { s with A := v, P := setZN v s.P, pc := s.pc + BitVec.ofNat 16 d.length, latch := none } := by
  rw [step_done h hd ht rfl, ← h.1]
  rfl

/-- LDA: A becomes the byte at the effective address (R110). -/
theorem step_lda (h : s.atOpcode b) (hd : Config.opTable.lookup b = some d) (hm : d.mnemonic = .lda)
    (hr : resolve d.mode (afterFetch s) = .ok ea) (hv : v = s.mem.read ea) :
    step s = .next { s with A := v, P := setZN v s.P, pc := s.pc + BitVec.ofNat 16 d.length, latch := none } := by
  refine step_setA h hd ?_
  rw [hm, hv]
  exact withEa_of_resolve hr _

/-- AND: A becomes its bitwise AND with the byte at the effective address (R130). -/
theorem step_and (h : s.atOpcode b) (hd : Config.opTable.lookup b = some d) (hm : d.mnemonic = .and)
    (hr : resolve d.mode (afterFetch s) = .ok ea) (hv : v = s.A &&& s.mem.read ea) :
    step s = .next { s with A := v, P := setZN v s.P, pc := s.pc + BitVec.ofNat 16 d.length, latch := none } := by
  refine step_setA h hd ?_
  rw [hm, hv]
  exact withEa_of_resolve hr _

/-- STA: the byte at the effective address becomes A (R119). -/
theorem step_sta (h : s.atOpcode b) (hd : Config.opTable.lookup b = some d) (hm : d.mnemonic = .sta)
    (hr : resolve d.mode (afterFetch s) = .ok ea) :
    step s = .next { s with mem := s.mem.write ea s.A, pc := s.pc + BitVec.ofNat 16 d.length, latch := none } := by
  have ht : handle d.mnemonic d.mode (afterFetch s) = .done ((afterFetch s).storeA ea) := by
    rw [hm]
    exact withEa_of_resolve hr _
  rw [step_done h hd ht rfl, ← h.1]
  rfl

/-- STA's accesses in a mode of format F3: its three bytes, then the one write (R46, R123). -/
theorem accessesTable_sta_of_length_three (h : s.atOpcode b) (hd : Config.opTable.lookup b = some d)
    (hm : d.mnemonic = .sta) (hr : resolve d.mode (afterFetch s) = .ok ea) (hl : d.mode.length = 3) :
    accessesTable Config.opTable s = [.read s.pc, .read (s.pc + 1#16), .read (s.pc + 2#16), .write ea s.A] := by
  obtain ⟨-, rfl⟩ := h
  rw [accessesTable_of_lookup hd, hm, handlerAccesses_sta_of_resolve hr, resolverReads_of_length_three hl]
  rfl

end

/-! ### LDA and AND -/

/-- Settles O1: mode Immediate resolves to the operand byte's own address. -/
theorem loadImmediateSteps : Obligations.LoadImmediateSteps :=
  ⟨fun _ h _ => step_lda h rfl rfl rfl, fun _ => rfl, fun _ h _ => step_and h rfl rfl rfl, fun _ => rfl⟩

/-- Settles O2: the modes resolve to the operand byte, or its 8-bit sum with X, as an address in page 0. -/
theorem loadZeroPageSteps : Obligations.LoadZeroPageSteps :=
  ⟨fun _ h _ => step_lda h rfl rfl rfl, fun _ h _ => step_lda h rfl rfl rfl, fun _ => rfl, fun _ => rfl,
    fun _ h _ => step_and h rfl rfl rfl, fun _ h _ => step_and h rfl rfl rfl, fun _ => rfl, fun _ => rfl⟩

/-- Settles O3: the modes resolve to the operand word, or its 16-bit sum with an index register. -/
theorem loadAbsoluteSteps : Obligations.LoadAbsoluteSteps :=
  ⟨fun s h _ => step_lda h rfl rfl (resolve_absolute s), fun s h _ => step_lda h rfl rfl (resolve_absoluteX s),
    fun s h _ => step_lda h rfl rfl (resolve_absoluteY s), fun _ => rfl, fun _ => rfl, fun _ => rfl,
    fun s h _ => step_and h rfl rfl (resolve_absolute s), fun s h _ => step_and h rfl rfl (resolve_absoluteX s),
    fun s h _ => step_and h rfl rfl (resolve_absoluteY s), fun _ => rfl, fun _ => rfl, fun _ => rfl⟩

/-- Settles O4: the modes resolve through a pointer in page 0, which IndirectX indexes before the read and IndirectY after. -/
theorem loadIndirectSteps : Obligations.LoadIndirectSteps :=
  ⟨fun _ h _ => step_lda h rfl rfl rfl, fun _ h _ => step_lda h rfl rfl rfl, fun _ => rfl, fun _ => rfl,
    fun _ h _ => step_and h rfl rfl rfl, fun _ h _ => step_and h rfl rfl rfl, fun _ => rfl, fun _ => rfl⟩

/-! ### STA -/

/-- Settles O5: the addresses are those of the ZeroPage loads. -/
theorem staZeroPageSteps : Obligations.StaZeroPageSteps :=
  ⟨fun _ h => step_sta h rfl rfl rfl, fun _ h => step_sta h rfl rfl rfl, fun _ => rfl, fun _ => rfl⟩

/-- Settles O6: the addresses are those of the Absolute loads, and the resolver reads the operand bytes only. -/
theorem staAbsoluteSteps : Obligations.StaAbsoluteSteps := by
  refine ⟨fun s h => ?_, fun s h => ?_, fun s h => ?_, fun _ => rfl, fun _ => rfl, fun _ => rfl⟩
  · have hr := resolve_absolute s
    exact ⟨step_sta h rfl rfl hr, accessesTable_sta_of_length_three h rfl rfl hr rfl⟩
  · have hr := resolve_absoluteX s
    exact ⟨step_sta h rfl rfl hr, accessesTable_sta_of_length_three h rfl rfl hr rfl⟩
  · have hr := resolve_absoluteY s
    exact ⟨step_sta h rfl rfl hr, accessesTable_sta_of_length_three h rfl rfl hr rfl⟩

/-- Settles O7: the pointer is the one the resolver read, in the memory before the write. -/
theorem staIndirectSteps : Obligations.StaIndirectSteps :=
  ⟨fun _ h => step_sta h rfl rfl rfl, fun _ h => step_sta h rfl rfl rfl, fun _ => rfl, fun _ => rfl⟩

end Sys2Proof.Machine
end

section
/-! Obligations O8, O9 and O18: TAX and INX, whose handlers set X and resolve no mode, and what the instructions without an
operand leave alone. -/

namespace Sys2Proof.Machine

/-! ### A step that sets X -/

section
variable {s : State} {b v : Byte} {d : Descriptor}

/-- A step whose handler sets X (R140, R141). -/
theorem step_setX (h : s.atOpcode b) (hd : Config.opTable.lookup b = some d)
    (ht : handle d.mnemonic d.mode (afterFetch s) = .done ((afterFetch s).setX v)) :
    step s = .next { s with X := v, P := setZN v s.P, pc := s.pc + BitVec.ofNat 16 d.length, latch := none } := by
  rw [step_done h hd ht rfl, ← h.1]
  rfl

/-- A handler that resolves no mode accesses no memory, so Fetch's read is the only one (R46). -/
theorem accessesTable_of_not_resolves (h : s.atOpcode b) (hd : Config.opTable.lookup b = some d)
    (hr : d.mnemonic.resolves = false) : accessesTable Config.opTable s = [.read s.pc] := by
  obtain ⟨-, rfl⟩ := h
  rcases handlerAccesses_cases d.mnemonic d.mode (afterFetch s) with ⟨-, hnil⟩ | ⟨hres, -⟩
  · rw [accessesTable_of_lookup hd, hnil]
  · exact absurd (hr.symm.trans hres) nofun

end

/-! ### The byte one further -/

theorem Byte.add_one_eq_zero_iff (x : Byte) : x + 1#8 = 0x00#8 ↔ x = 0xFF#8 := by
  bv_omega

theorem Byte.getLsbD_seven_iff (x : Byte) : x.getLsbD 7 = true ↔ 0x80 ≤ x.toNat := by
  rw [← BitVec.msb_eq_getLsbD_last, BitVec.msb_eq_decide, decide_eq_true_iff]

/-- N after INX, by the number before it: 0x7F counts up to 0x80, and 0xFF wraps to 0x00 (R141). -/
theorem Byte.getLsbD_seven_add_one_iff (x : Byte) : (x + 1#8).getLsbD 7 = true ↔ 0x7F ≤ x.toNat ∧ x.toNat ≤ 0xFE := by
  rw [Byte.getLsbD_seven_iff]
  bv_omega

/-! ### The two steps and the frame -/

/-- Settles O8: the handler sets X to A and resolves no mode. -/
theorem taxStep : Obligations.TaxStep :=
  ⟨fun _ h => ⟨step_setX h rfl rfl, accessesTable_of_not_resolves h rfl rfl⟩, rfl⟩

/-- Settles O9: the handler sets X to its 8-bit sum with one, and the flags of that sum are read back as bounds on the old X. -/
theorem inxStep : Obligations.InxStep := by
  refine ⟨fun s h => ⟨s.X + 1#8, BitVec.toNat_add s.X 1#8, step_setX h rfl rfl, ?_, ?_,
    accessesTable_of_not_resolves h rfl rfl⟩, rfl⟩
  · rw [flagZ_setZN, decide_eq_true_iff, Byte.add_one_eq_zero_iff]
  · rw [flagN_setZN, Byte.getLsbD_seven_add_one_iff]

/-- Settles O18: every meaning's frame, of TAX and INX that X is the one register they write, and of BRK that it is `halt`. -/
theorem registerAndSystemFrame : Obligations.RegisterAndSystemFrame := by
  refine ⟨fun i s t hi h => ?_, fun s t h => ?_⟩
  · obtain ⟨hY, hpc, hlatch, hP, -, hloop, -⟩ := exec_frame h
    have hkept : i ≠ .brk ∧ t.A = s.A ∧ t.mem = s.mem := by
      rcases hi with rfl | rfl
      all_goals
        obtain ⟨-, hA, -, hmem⟩ := exec_writes h
        exact ⟨nofun, hA, hmem⟩
    obtain ⟨hbrk, hA, hmem⟩ := hkept
    exact ⟨hA, hY, hpc, hloop hbrk, hlatch, hP, fun a => by rw [hmem]⟩
  · obtain ⟨-, -, -, -, -, -, hhalt⟩ := exec_frame h
    obtain rfl : t = s.halt := hhalt rfl
    exact ⟨rfl, rfl, rfl, rfl, rfl, rfl, fun _ => rfl⟩

end Sys2Proof.Machine
end

section
/-! Obligation O10: BRK, whose handler is `halt` and resolves no mode. -/

namespace Sys2Proof.Machine

/-- A pass at the opcode byte of BRK ends where Fetch left pc, with nothing advanced (R145). -/
theorem pass_brk {s : State} (h : s.atOpcode 0x00#8) :
    pass s = .halt { s with pc := s.pc + 1#16, loopState := .halted, latch := none } := by
  obtain ⟨hf, hb⟩ := h
  obtain ⟨d, hd, hm, -⟩ := Instr.lookup_opcode .brk
  rw [pass_eq_passTable, passTable_brk hf (hb ▸ hd) hm]

/-- Settles O10: the step is the outcome of the pass, and a handler that resolves no mode reads no operand. -/
theorem brkStep : Obligations.BrkStep :=
  ⟨fun _ h => ⟨pass_brk h, congrArg Pass.outcome (pass_brk h), accessesTable_of_not_resolves h rfl rfl⟩, rfl⟩

end Sys2Proof.Machine
end

section
/-! Obligations O30, O31, O55 and O58: host accesses to one byte, one word or one register of a context, and to one context of
several. -/

namespace Sys2Proof.Machine

/-! ### A byte -/

/-- Two numbers name the same cell where they agree modulo 65536 (R152). -/
theorem Word.ofNat_eq_iff {a b : Nat} : BitVec.ofNat 16 a = BitVec.ofNat 16 b ↔ a % 65536 = b % 65536 := by
  rw [BitVec.toNat_eq, BitVec.toNat_ofNat, BitVec.toNat_ofNat]

/-- Everything WriteByte does to what ReadByte gives (R153). -/
theorem State.readByte_writeByte (s : State) (a b : Nat) (v : Byte) :
    (s.writeByte a v).readByte b = if a % 65536 = b % 65536 then v else s.readByte b := by
  simp only [State.readByte, State.writeByte_mem, Memory.read_write, Word.ofNat_eq_iff, eq_comm]

/-- Settles O30: the two operations name their cell modulo 65536, and the context's are the state's. -/
theorem hostByteAccess : Obligations.HostByteAccess := by
  refine fun s a b v => ⟨?_, s.readByte_writeByte a b v, rfl, rfl, rfl, rfl, rfl, rfl, rfl, fun T n h =>
    ⟨Context.call_readByte rfl T n b, Context.call_eq_perform rfl T n _⟩⟩
  rw [State.readByte, Word.ofNat_eq_iff.mpr (Nat.mod_mod b 65536)]

/-! ### A word -/

/-- WriteWord is two byte writes, low byte first (R157). -/
theorem State.writeWordAt_eq_writeByte (s : State) (a : Nat) (w : Word) :
    s.writeWordAt a w = (s.writeByte a (lo w)).writeByte (a + 1) (hi w) := by
  rw [State.writeWordAt, State.writeByte, State.writeByte, BitVec.ofNat_add]
  rfl

/-- Everything WriteWord does to what ReadByte gives (R157). -/
theorem State.readByte_writeWordAt (s : State) (a b : Nat) (w : Word) :
    (s.writeWordAt a w).readByte b =
      if (a + 1) % 65536 = b % 65536 then hi w else if a % 65536 = b % 65536 then lo w else s.readByte b := by
  rw [State.writeWordAt_eq_writeByte, State.readByte_writeByte, State.readByte_writeByte]

/-- ReadWord as a number; the second address wraps at 16 bits (R156). -/
theorem State.toNat_readWordAt (s : State) (a : Nat) :
    (s.readWordAt a).toNat = (s.readByte a).toNat + 256 * (s.readByte (a + 1)).toNat := by
  rw [State.readWordAt, Memory.toNat_readWord, State.readByte, State.readByte, BitVec.ofNat_add]

/-- Settles O31: the word's two bytes stand at addresses that differ modulo 65536. -/
theorem hostWordAccess : Obligations.HostWordAccess := by
  intro s a w
  have hne : (a + 1) % 65536 ≠ a % 65536 := by omega
  refine ⟨s.toNat_readWordAt a, ?_, ?_, Memory.readWord_writeWord_same _ _ w, fun b hb hb' => ?_,
    s.writeWordAt_eq_writeByte a w, rfl, rfl, rfl, rfl, rfl, rfl, rfl, fun T n h =>
      ⟨Context.call_eq_perform rfl T n _, Context.call_eq_perform rfl T n _⟩⟩
  · rw [State.readByte_writeWordAt, if_neg hne, if_pos rfl, lo_toNat]
  · rw [State.readByte_writeWordAt, if_pos rfl, hi_toNat]
  · rw [State.readByte_writeWordAt, if_neg hb'.symm, if_neg hb.symm]

/-! ### A register -/

/-- Everything WriteReg does to what ReadReg gives (R158). -/
theorem State.readReg_writeReg (s : State) (v : RegVal) (r : Reg) :
    (s.writeReg v).readReg r = if r = v.reg then v else s.readReg r := by
  cases v <;> cases r <;> rfl

/-- What WriteReg leaves alone besides the other registers (R158). -/
theorem State.writeReg_frame (s : State) (v : RegVal) :
    (s.writeReg v).mem = s.mem ∧ (s.writeReg v).loopState = s.loopState ∧ (s.writeReg v).latch = s.latch := by
  cases v <;> exact ⟨rfl, rfl, rfl⟩

theorem Valued.has_give (v : Valued) (q r : Reg) : (v.give q).has r = if r = q then true else v.has r := by
  cases q <;> cases r <;> rfl

theorem Context.call_writeReg {c : Context} (h : c.runInProgress = false) (T : OpTable) (n : Nat) (v : RegVal) :
    c.call T n (.writeReg v) = (.ok, { c with state := c.state.writeReg v, valued := c.valued.give v.reg }) := by
  rw [Context.call_eq_perform h, Context.perform]

theorem Context.call_readReg {c : Context} (h : c.runInProgress = false) (T : OpTable) (n : Nat) (r : Reg) :
    c.call T n (.readReg r) =
      if c.valued.has r then (.reg (c.state.readReg r), c) else (.refused (.valueless r), c) := by
  rw [Context.call_eq_perform h, Context.perform]

/-- Settles O55: WriteReg gives its register the value and no other register anything. -/
theorem hostRegisterAccess : Obligations.HostRegisterAccess := by
  intro T n c v h
  obtain ⟨hmem, hloop, hlatch⟩ := c.state.writeReg_frame v
  rw [Context.call_writeReg h]
  refine ⟨?_, fun r hr => ⟨?_, ?_⟩, hmem, hloop, hlatch, Context.call_readReg h T n⟩
  · simp [Context.call_readReg, h, Valued.has_give, State.readReg_writeReg]
  · rw [State.readReg_writeReg, if_neg hr]
  · rw [Valued.has_give, if_neg hr]

/-! ### A context of several -/

theorem Environment.call_of_getElem? {e : Environment} {i : Nat} {c : Context} (h : e[i]? = some c) (T : OpTable) (n : Nat)
    (op : HostOp) : e.call T n i op = (some (c.call T n op).1, e.set i (c.call T n op).2) := by
  rw [Environment.call, h]

theorem Environment.call_of_none {e : Environment} {i : Nat} (h : e[i]? = none) (T : OpTable) (n : Nat) (op : HostOp) :
    e.call T n i op = (none, e) := by
  rw [Environment.call, h]

/-- Settles O58: the operation replaces the i-th context, or nothing where there is none. -/
theorem contextsAreIndependent : Obligations.ContextsAreIndependent := by
  refine fun T n e i op => ⟨fun j hj => ?_, fun c hc => ?_⟩
  · cases hi : e[i]? with
    | none => rw [Environment.call_of_none hi]
    | some c =>
      rw [Environment.call_of_getElem? hi]
      exact List.getElem?_set_ne hj.symm
  · obtain ⟨hlt, -⟩ := List.getElem?_eq_some_iff.mp hc
    rw [Environment.call_of_getElem? hc]
    exact ⟨rfl, List.getElem?_set_self hlt⟩

end Sys2Proof.Machine
end

section
/-! Obligations O48 and O53: the state Load leaves, and the state LoadAndRun's loop begins from. -/

namespace Sys2Proof.Machine

/-! ### What Load leaves -/

theorem State.loaded_mem (s : State) (bytes : List Byte) : (s.loaded bytes).mem =
    (s.mem.writeBytes Config.loadBase bytes).writeWord Config.resetVector Config.loadBase := rfl

/-- Load writes the vector last, so it holds 0x8000 whatever the program has there (R150). -/
theorem State.readWord_loaded_vector (s : State) (bytes : List Byte) :
    (s.loaded bytes).mem.readWord Config.resetVector = Config.loadBase := by
  rw [State.loaded_mem, Memory.readWord_writeWord_same]

/-- Everything the memory after Load gives to a read: the vector's bytes, and elsewhere what copying the program left (R150). -/
theorem State.read_loaded (s : State) (bytes : List Byte) (a : Word) :
    (s.loaded bytes).mem.read a =
      if a = 0xFFFD#16 then 0x80#8 else if a = 0xFFFC#16 then 0x00#8
      else (s.mem.writeBytes Config.loadBase bytes).read a := by
  rw [State.loaded_mem, Memory.read_writeWord]
  rfl

theorem State.read_loaded_of_ne_vector (s : State) (bytes : List Byte) {a : Word} (hl : a ≠ 0xFFFC#16) (hh : a ≠ 0xFFFD#16) :
    (s.loaded bytes).mem.read a = (s.mem.writeBytes Config.loadBase bytes).read a := by
  rw [State.read_loaded, if_neg hh, if_neg hl]

/-- The address of byte i of a program that fits, as a number; it does not wrap (R150). -/
theorem toNat_loadBase_add {i : Nat} (h : i < 0x8000) : (0x8000#16 + BitVec.ofNat 16 i).toNat = 0x8000 + i := by
  rw [BitVec.toNat_add, BitVec.toNat_ofNat, BitVec.toNat_ofNat]
  omega

/-- The program stands at 0x8000 on, but where the vector was written over it (R150). -/
theorem State.read_loaded_program (s : State) {bytes : List Byte} {i : Nat} {v : Byte} (h : bytes.length ≤ 0x8000)
    (hv : bytes[i]? = some v) (hl : i ≠ 0x7FFC) (hh : i ≠ 0x7FFD) :
    (s.loaded bytes).mem.read (0x8000#16 + BitVec.ofNat 16 i) = v := by
  obtain ⟨hi, -⟩ := List.getElem?_eq_some_iff.mp hv
  have ha := toNat_loadBase_add (i := i) (by omega)
  have hne : ∀ k : Word, 0x8000 + i ≠ k.toNat → 0x8000#16 + BitVec.ofNat 16 i ≠ k := fun k hk he => hk (ha ▸ congrArg _ he)
  have hl' : 0x8000 + i ≠ (0xFFFC#16).toNat := by rw [BitVec.toNat_ofNat]; omega
  have hh' : 0x8000 + i ≠ (0xFFFD#16).toNat := by rw [BitVec.toNat_ofNat]; omega
  rw [State.read_loaded_of_ne_vector s bytes (hne _ hl') (hne _ hh')]
  exact Memory.read_writeBytes_inside bytes s.mem _ i v (by omega) hv

/-- Outside the program and the vector memory is as before (R150). -/
theorem State.read_loaded_outside (s : State) {bytes : List Byte} {a : Word} (h : bytes.length ≤ 0x8000)
    (hl : a ≠ 0xFFFC#16) (hh : a ≠ 0xFFFD#16) (ha : a.toNat < 0x8000 ∨ 0x8000 + bytes.length ≤ a.toNat) :
    (s.loaded bytes).mem.read a = s.mem.read a := by
  rw [State.read_loaded_of_ne_vector s bytes hl hh]
  refine Memory.read_writeBytes_outside bytes s.mem _ a fun i hi he => ?_
  have hai : a.toNat = 0x8000 + i := he ▸ toNat_loadBase_add (by omega)
  omega

/-- A pass raises only the faults of Dispatch and of the resolver (R170, R171, R172). -/
theorem passTable_ne_outOfBoundsLoad (T : OpTable) (s t : State) : passTable T s ≠ .raise .outOfBoundsLoad t := by
  intro h
  obtain ⟨-, ⟨hf, -⟩ | ⟨hf, -⟩⟩ := pass_faulted h <;> cases hf

/-! ### The host calls -/

theorem State.loadAndRun_too_long {bytes : List Byte} (h : bytes.length > 0x8000) (T : OpTable) (n : Nat) (s : State) :
    s.loadAndRun T n bytes = (.fault .outOfBoundsLoad, s) := by
  rw [State.loadAndRun, State.load_too_long h]

theorem State.loadAndRun_fits {bytes : List Byte} (h : bytes.length ≤ 0x8000) (T : OpTable) (n : Nat) (s : State) :
    s.loadAndRun T n bytes = runFrom T n (s.loaded bytes).hostReset.beginRun := by
  rw [State.loadAndRun, State.load_fits h]
  rfl

theorem Context.call_load_too_long {bytes : List Byte} (hb : bytes.length > 0x8000) {c : Context}
    (h : c.runInProgress = false) (T : OpTable) (n : Nat) : c.call T n (.load bytes) = (.fault .outOfBoundsLoad, c) := by
  rw [Context.call_eq_perform h, Context.perform, Context.load_too_long hb]

theorem Context.call_load_fits {bytes : List Byte} (hb : bytes.length ≤ 0x8000) {c : Context}
    (h : c.runInProgress = false) (T : OpTable) (n : Nat) : c.call T n (.load bytes) = (.ok, c.loaded bytes) := by
  rw [Context.call_eq_perform h, Context.perform, Context.load_fits hb]

/-- Settles O48: a program that fits neither reaches below 0x8000 nor wraps, and the vector is written after it. -/
theorem loadCopiesTheProgram : Obligations.LoadCopiesTheProgram := by
  refine fun s bytes => ⟨fun hb => ⟨State.load_too_long hb s, fun T n v => Context.call_load_too_long hb rfl T n,
    fun T n => State.loadAndRun_too_long hb T n s⟩, fun t => ?_, fun T t => passTable_ne_outOfBoundsLoad T s t,
    fun hb => ⟨s.loaded bytes, State.load_fits hb s, rfl, rfl, rfl, rfl, rfl, rfl, s.read_loaded bytes _,
      s.read_loaded bytes _, fun i v hv => s.read_loaded_program hb hv, fun a hl hh => s.read_loaded_outside hb hl hh,
      fun T n v => Context.call_load_fits hb rfl T n⟩⟩
  rw [pass_eq_passTable]
  exact passTable_ne_outOfBoundsLoad Config.opTable s t

/-- Settles O53: Reset takes pc from the vector Load has just written, and zeroes every other register. -/
theorem loadAndRunStartsFresh : Obligations.LoadAndRunStartsFresh := by
  refine fun T s bytes n => ⟨fun hb => State.loadAndRun_too_long hb T n s, fun hb =>
    ⟨s.loaded bytes, State.load_fits hb s, ?_⟩⟩
  rw [State.loadAndRun_fits hb, State.beginRun, State.hostReset_pc, State.readWord_loaded_vector]
  rfl

end Sys2Proof.Machine
end

section
/-! Obligation O54: where Run begins, also after a Run that has ended. -/

namespace Sys2Proof.Machine

/-- Run looks at no loop state (R154). -/
theorem State.run_of_latch_none {t : State} (h : t.latch = none) (T : OpTable) (k : Nat) :
    t.run T k = runFrom T k { t with loopState := .fetch } := by
  rw [State.run, State.beginRun, h]

theorem haltsIn_of_runFrom {T : OpTable} {n : Nat} {s t : State} (h : runFrom T n s = (.halted, t)) : HaltsIn T s t :=
  (runIsTheClosureOfStep T s t).1.mp ⟨n, h⟩

/-- What a Run that faulted has left: what Fetch made of a state whose pass faults (R97, R177). -/
theorem faultedAt_of_runFrom {T : OpTable} {n : Nat} {s t : State} {f : Fault} (h : runFrom T n s = (.fault f, t)) :
    ∃ u, t = faultedAt u ∧
      ((f = .unsupportedOpcode (u.mem.read u.pc) ∧ ∀ d, T.lookup (u.mem.read u.pc) = some d → d.mnemonic.wired = false) ∨
       (f = .invalidAddressingUse ∧ resolvesNone T u)) := by
  obtain ⟨u, -, hp⟩ := ((runIsTheClosureOfStep T s t).2 f).mp ⟨n, h⟩
  exact ⟨u, pass_faulted hp⟩

/-- The byte before pc after a fault is the byte Fetch read (R177). -/
theorem read_before_pc_faultedAt (u : State) : (faultedAt u).mem.read ((faultedAt u).pc - 1#16) = u.mem.read u.pc :=
  congrArg u.mem.read (BitVec.add_sub_cancel u.pc 1#16)

/-- Between instructions nothing is latched, and a Run that has ended stands outside Fetch (R19, R96, R97). -/
theorem ended_of_runFrom {T : OpTable} {n : Nat} {s t : State} {f : Fault}
    (h : runFrom T n s = (.halted, t) ∨ runFrom T n s = (.fault f, t)) : t.loopState ≠ .fetch ∧ t.latch = none := by
  rcases h with h | h
  · obtain ⟨u, -, hp⟩ := haltsIn_of_runFrom h
    obtain ⟨d, -, -, rfl⟩ := pass_halted hp
    exact ⟨nofun, rfl⟩
  · obtain ⟨u, rfl, -⟩ := faultedAt_of_runFrom h
    exact ⟨nofun, rfl⟩

/-- Settles O54: Run begins with the loop state and the latch of its own; and a pass that ended the Run before has moved pc by
Fetch alone and written nothing. -/
theorem runStartsFromTheStateAsItStands : Obligations.RunStartsFromTheStateAsItStands := by
  refine fun T n s => ⟨rfl, fun t f h => ?_, fun t h => ?_, fun t b h => ?_, fun t h => ?_⟩
  · obtain ⟨hloop, hlatch⟩ := ended_of_runFrom h
    exact ⟨hloop, State.run_of_latch_none hlatch T⟩
  · obtain ⟨u, d, -, hd, hbrk, -, hread, hzero⟩ := haltedRunEndsAfterABrk T s t (haltsIn_of_runFrom h)
    rw [hread]
    exact ⟨⟨d, hd, hbrk⟩, hzero⟩
  · obtain ⟨u, rfl, ⟨hf, hw⟩ | ⟨hf, -⟩⟩ := faultedAt_of_runFrom h <;> cases hf
    exact ⟨read_before_pc_faultedAt u, hw⟩
  · obtain ⟨u, rfl, ⟨hf, -⟩ | ⟨-, hnone⟩⟩ := faultedAt_of_runFrom h
    · cases hf
    · rw [read_before_pc_faultedAt]
      exact hnone

end Sys2Proof.Machine
end

section
/-! Obligation O42: when a pass raises InvalidAddressingUse. -/

namespace Sys2Proof.Machine

/-- A pass that raises InvalidAddressingUse stands at a resolving handler's descriptor with mode None (R171). -/
theorem resolvesNone_of_invalidAddressingUse {T : OpTable} {s t : State}
    (h : passTable T s = .raise .invalidAddressingUse t) : resolvesNone T s := by
  obtain ⟨-, ⟨hf, -⟩ | ⟨-, hnone⟩⟩ := pass_faulted h
  · cases hf
  · exact hnone

theorem passTable_of_resolvesNone {T : OpTable} {s : State} (hf : s.loopState = .fetch) (h : resolvesNone T s) :
    passTable T s = .raise .invalidAddressingUse (faultedAt s) := by
  obtain ⟨d, hd, hmode, hr⟩ := h
  exact passTable_resolves_none hf hd hr hmode

/-- R55 (c) keeps a resolving mnemonic and mode None apart. -/
theorem not_resolvesNone_of_wf {T : OpTable} (hT : T.wf = true) (s : State) : ¬ resolvesNone T s := by
  rintro ⟨d, hd, hmode, hr⟩
  exact (resolves_iff_of_lookup hT hd).mp hr hmode

/-- Settles O42: a resolver fails for mode None alone, and no descriptor of a well-formed table gives that mode to a handler that
resolves. -/
theorem invalidAddressingUseExactlyForNone : Obligations.InvalidAddressingUseExactlyForNone := by
  refine ⟨fun T s hf => ⟨⟨?_, fun h => ⟨_, passTable_of_resolvesNone hf h⟩⟩, passTable_of_resolvesNone hf⟩,
    fun T s t hT h => not_resolvesNone_of_wf hT s (resolvesNone_of_invalidAddressingUse h)⟩
  rintro ⟨t, h⟩
  exact resolvesNone_of_invalidAddressingUse h

end Sys2Proof.Machine
end
